-- ==== Sys2Proof/Word.lean ====
section
/-! DEFINITION. The widths of DESCLI-CORE (00_scope.md R8): every value is an unsigned bit vector of a stated width
(R10). -/

namespace Sys2Proof

/-- One byte of a buffer (R8, R53). -/
abbrev Byte := BitVec 8

/-- An interface register: CMD, STATUS and the LEN registers (R25, R26, R53). -/
abbrev Word := BitVec 32

/-- A block or a key: 64 bits, 8 bytes (R8). -/
abbrev Block := BitVec 64

/-- A half block: 32 bits, 4 bytes (R8). -/
abbrev Half := BitVec 32

/-- A round key: 48 bits, 6 bytes (R8). -/
abbrev Subkey := BitVec 48

/-- A half of the key schedule: C or D, 28 bits (R8, R31). -/
abbrev KeyHalf := BitVec 28

end Sys2Proof
end

