-- ==== Sys2Proof/Syntax.lean ====
section
/-! DEFINITION. The command set (30_encoding.md R72, one constructor per row of spec/opcode_table.json) and what a
host and the platform can do to the engine (30_encoding.md R76, 70_reset_and_hazards.md R240). -/

namespace Sys2Proof

/-- The seven commands of R72. A command word has no operand field (R71), so no constructor has an argument. -/
inductive Instr where
  | enc
  | dec
  | genkeys
  | iperm
  | fperm
  | feistel
  | sbox
  deriving DecidableEq, Repr, Inhabited

/-- The two operand buffers (R21, R22). -/
inductive OperandBuf where
  | opa
  | opb
  deriving DecidableEq, Repr, Inhabited

/-- The three byte buffers a host can read (R37). -/
inductive Buf where
  | operand (b : OperandBuf)
  | res
  deriving DecidableEq, Repr, Inhabited

/-- The whole registers a host can read (R28, R37). -/
inductive Reg where
  | cmd
  | status
  | present (b : OperandBuf)
  | len (b : OperandBuf)
  | resLen
  deriving DecidableEq, Repr, Inhabited

/-- A piece of interface state that IFACE_ADDRMAP binds to a bus address (R56). -/
inductive IfaceLoc where
  | reg (r : Reg)
  | byte (b : Buf) (index : Nat)
  deriving DecidableEq, Repr, Inhabited

/-- The value one host read returns, at the width of the access (R53). -/
inductive Datum where
  | bit (v : Bool)
  | word (v : Word)
  | byte (v : Byte)
  deriving DecidableEq, Repr, Inhabited

/-- One input to the engine: a host access (the primitive statements of R76 on the state of R28, each at its width of
R53, the ignored writes of R54 included) or the platform's RESET (R240). -/
inductive Input where
  /-- `WR CMD, w`: starts a command (R26, R54). -/
  | wrCmd (w : Word)
  /-- `WR OPx_PRESENT, v`. -/
  | wrPresent (b : OperandBuf) (v : Bool)
  /-- `WR OPx_LEN, v`: any 32-bit value (R28, R38). -/
  | wrLen (b : OperandBuf) (v : Word)
  /-- `WRB OPx, i, v`. -/
  | wrData (b : OperandBuf) (index : Nat) (v : Byte)
  /-- A host write of STATUS, ignored (R25, R54). -/
  | wrStatus (v : Word)
  /-- A host write of RES_LEN, ignored (R23, R54). -/
  | wrResLen (v : Word)
  /-- A host write of a RES_DATA byte, ignored (R23, R54). -/
  | wrResData (index : Nat) (v : Byte)
  /-- `RD reg`. -/
  | rd (r : Reg)
  /-- `RDB buf, i`. -/
  | rdb (b : Buf) (index : Nat)
  /-- The platform asserts RESET (R240). -/
  | reset
  deriving DecidableEq, Repr, Inhabited

end Sys2Proof
end

