-- ==== Sys2Proof/Decode.lean ====
section
/-! DEFINITION. The decoder of 30_encoding.md R70 to R75, total on all 2^32 words, and the encoder. -/

namespace Sys2Proof

/-- Why a word is illegal (R74). -/
inductive IllegalWord where
  /-- RSVD, bits 31..8, is not 0. -/
  | reservedBits
  /-- RSVD is 0 and OP is 0x00 or lies in 0x08..0xFF. -/
  | unknownOp
  deriving DecidableEq, Repr, Inhabited

/-- What a word decodes to: `Command | Illegal` in R75. -/
inductive Decoded where
  | command (i : Instr)
  | illegal (why : IllegalWord)
  deriving DecidableEq, Repr, Inhabited

/-- OP = CMD[7:0] (R70). -/
def opField (w : Word) : Byte := w.extractLsb' 0 8

/-- RSVD = CMD[31:8] (R70). -/
def rsvdField (w : Word) : BitVec 24 := w.extractLsb' 8 24

/-- The opcode map of R72 read from OP. -/
def decodeOp (op : Byte) : Decoded :=
  if op = 0x01#8 then .command .enc
  else if op = 0x02#8 then .command .dec
  else if op = 0x03#8 then .command .genkeys
  else if op = 0x04#8 then .command .iperm
  else if op = 0x05#8 then .command .fperm
  else if op = 0x06#8 then .command .feistel
  else if op = 0x07#8 then .command .sbox
  else .illegal .unknownOp

/-- R75: RSVD first, then OP. -/
def decode (w : Word) : Decoded :=
  if rsvdField w ≠ 0#24 then .illegal .reservedBits else decodeOp (opField w)

/-- The word of a command (the `word` column of R72). -/
def encode : Instr → Word
  | .enc => 0x00000001#32
  | .dec => 0x00000002#32
  | .genkeys => 0x00000003#32
  | .iperm => 0x00000004#32
  | .fperm => 0x00000005#32
  | .feistel => 0x00000006#32
  | .sbox => 0x00000007#32

/-- The instruction the decoder reads from an opcode-table word of `nbits` bits. A command is one 32-bit register
value (R70), so there is no byte order to choose (R53), and a word of more than 32 bits is no command. -/
def decodeTableWord (nbits w : Nat) : Option Instr :=
  if w % 2 ^ nbits < 2 ^ 32 then
    match decode (BitVec.ofNat 32 (w % 2 ^ nbits)) with
    | .command i => some i
    | .illegal _ => none
  else none

end Sys2Proof
end

