-- ==== Sys2Proof/Machine/Bits.lean ====
section
/-! DEFINITION. Bit numbering and byte order (00_scope.md R11, R12; 20_memory.md R50). -/

namespace Sys2Proof.Machine

/-- DES bit `i` of an n-bit value, 1-based and MSB-first: `v⟨i⟩ = v[n - i]` (R11). -/
def desBit {n : Nat} (v : BitVec n) (i : Nat) : Bool := v.getMsbD (i - 1)

/-- The value of a byte string as a number: byte 0 is the most significant (R12). -/
def beNat : List Byte → Nat
  | [] => 0
  | b :: bs => b.toNat * 2 ^ (8 * bs.length) + beNat bs

/-- `be(b)` of R12 at the width `n` of the unit read: 8 bits for each byte. -/
def be (n : Nat) (bs : List Byte) : BitVec n := BitVec.ofNat n (beNat bs)

/-- `bytes_m(v)` of R12: the m bytes of an 8m-bit value, the most significant first. -/
def bytesOf {n : Nat} (m : Nat) (v : BitVec n) : List Byte :=
  (List.range m).map fun i => v.extractLsb' (8 * (m - 1 - i)) 8

/-- Block `j` of a byte string: the 64-bit value of its bytes 8j..8j+7 (R51). -/
def blockAt (x : List Byte) (j : Nat) : Block := be 64 ((x.drop (8 * j)).take 8)

end Sys2Proof.Machine
end

