-- ==== Sys2Proof/Machine/Flags.lean ====
section
/-! DEFINITION. STATUS, the only status indication (10_state.md R25, R27): its codes and its word. The engine has no
arithmetic flags (R27). -/

namespace Sys2Proof.Machine

/-- The three error kinds (00_scope.md R18). -/
inductive Err where
  | invalidArgument
  | cryptoIntegrity
  | unsupported
  deriving DecidableEq, Repr, Inhabited

/-- STATUS.CODE (R25, R210). -/
inductive Code where
  | none
  | ok
  | error (e : Err)
  deriving DecidableEq, Repr, Inhabited

/-- The three CODE bits (R25). -/
def Code.bits : Code → BitVec 3
  | .none => 0
  | .ok => 1
  | .error .invalidArgument => 2
  | .error .cryptoIntegrity => 3
  | .error .unsupported => 4

/-- The STATUS word: CODE in [2:0], LASTOP in [15:8], every other bit 0 (R25). -/
def statusWord (c : Code) (lastop : Byte) : Word := lastop.setWidth 32 <<< 8 ||| c.bits.setWidth 32

/-- STATUS.CODE (R25). -/
def statusCode (w : Word) : BitVec 3 := w.extractLsb' 0 3

/-- STATUS.LASTOP (R25). -/
def statusLastop (w : Word) : Byte := w.extractLsb' 8 8

/-- The reserved bits [7:3] and [31:16] read 0 (R25, I6). -/
def statusReservedZero (w : Word) : Bool := w.extractLsb' 3 5 == 0#5 && w.extractLsb' 16 16 == 0#16

end Sys2Proof.Machine
end

