-- ==== Sys2Proof/Machine/Hidden.lean ====
section
/-! DEFINITION. The hidden state of the engine (10_state.md R30 to R34): what one command works with. The table ROM
(R29) is constant and stands in the family files. -/

namespace Sys2Proof.Machine

/-- The direction of a block, which selects the subkey order (R34, R172). -/
inductive Dir where
  | encrypt
  | decrypt
  deriving DecidableEq, Repr, Inhabited

/-- The hidden registers, under the spec's names. -/
structure Hidden where
  /-- RKF[0..15], the round-key file (R30). -/
  rkf : Vector Subkey 16
  /-- C and D, the key-schedule halves (R31). -/
  c : KeyHalf
  d : KeyHalf
  /-- L and R, the block halves (R32). -/
  l : Half
  r : Half
  /-- PRE, the pre-output block (R32). -/
  pre : Block
  /-- WBUF, the working buffer (R33). -/
  wbuf : List Byte
  /-- DIR (R34). -/
  dir : Dir
  /-- RND, the number of rounds done, 0..16 (R34). -/
  rnd : Fin 17
  /-- BLK, the index of the current block (R34). -/
  blk : Nat
  /-- NBLK, the block count (R34). -/
  nblk : Nat
  deriving DecidableEq, Repr, Inhabited

/-- The hidden state at reset. DESIGN CHOICE (log 7), unsafe: R36 leaves every one of these values unspecified and
R35 makes them unobservable; no statement rests on them. -/
def Hidden.zero : Hidden where
  rkf := Vector.replicate 16 0
  c := 0
  d := 0
  l := 0
  r := 0
  pre := 0
  wbuf := []
  dir := .encrypt
  rnd := 0
  blk := 0
  nblk := 0

end Sys2Proof.Machine
end

