-- ==== Sys2Proof/Config.lean ====
section
/-! DEFINITION. What an instance of the engine fixes (00_scope.md R9) and the free values of the spec
(93_implementation_defined.md I3, I4, I9). None of the constants below has a body: a claim is true whatever they are. -/

namespace Sys2Proof.Config

/-- The open part of MAXLEN: how many blocks above 96 bytes the instance's operand buffers hold. -/
opaque extraBlocks : Nat

/-- MAXLEN, the capacity in bytes of each operand buffer (R9, D6; log 2): some multiple of 8 that is at least 96 and
satisfies MAXLEN + 8 ≤ 2^32 - 1. Every such number is a value of this expression. -/
def maxLen : Nat := 8 * (extraBlocks % 536870899) + 96

/-- IFACE_ADDRMAP, the binding of interface state to bus addresses (R9, R56, D21; log 3). No rule depends on it. -/
opaque ifaceAddrMap : IfaceLoc → Nat

/-- A byte of operand storage that the host has not written since reset: any value (R38, I4; log 4). The first argument
counts the RESETs so far, the last is the byte's index. -/
opaque freeOperandByte : Nat → OperandBuf → Nat → Byte

/-- A byte of RES_DATA at or above RES_LEN: any value (R23, I3; log 5). The first two arguments count the RESETs so far
and the commands since the last one, the third is the byte's index. -/
opaque freeResByte : Nat → Nat → Nat → Byte

/-- The hidden state a completed command leaves behind: any value (R30, R35, I9; log 8). The arguments count as those
of freeResByte do. -/
opaque freeHidden : Nat → Nat → Machine.Hidden

end Sys2Proof.Config
end

