-- ==== Sys2Proof/Machine/State.lean ====
section
/-! DEFINITION. The machine's state (10_state.md R20 to R34), its reset (R36, R240), and the reasons a step can stop. -/

namespace Sys2Proof.Machine

/-- A byte buffer: the bytes written since reset, as (index, byte) cells with strictly rising indices (log 6). An
index that is not listed holds no written byte. -/
abbrev Memory := List Host.Cell

/-- One operand buffer (R21, R22). -/
structure OperandBuffer where
  /-- OPx_PRESENT: false is the source's "null/absent". -/
  present : Bool
  /-- OPx_LEN. -/
  len : Word
  /-- OPx_DATA[0..MAXLEN-1]. -/
  data : Memory
  deriving DecidableEq, Repr, Inhabited

/-- The result buffer (R23). -/
structure ResultBuffer where
  /-- RES_LEN. -/
  len : Word
  /-- RES_DATA[0..MAXLEN+7]. -/
  data : Memory
  deriving DecidableEq, Repr, Inhabited

/-- Everything the spec gives the machine, and the model's own last four fields. -/
structure State where
  /-- Operand buffer A (R21). -/
  opa : OperandBuffer
  /-- Operand buffer B (R22). -/
  opb : OperandBuffer
  /-- The result buffer (R23). -/
  res : ResultBuffer
  /-- CMD, the last word the host wrote (R26). -/
  cmd : Word
  /-- STATUS (R25). -/
  status : Word
  /-- The hidden registers (R30 to R34). -/
  hid : Hidden
  /-- The model's: what the host and the platform do next, oldest first (R58; log 1). -/
  inputs : List Input
  /-- The model's: what the host's reads have returned, oldest first (R76; log 11). -/
  seen : List Datum
  /-- The model's: the number of RESETs so far, which selects free values (log 9). -/
  resetNo : Nat
  /-- The model's: the number of commands completed since RESET, which selects free values (log 9). -/
  cmdNo : Nat
  deriving DecidableEq, Repr, Inhabited

/-- An operand buffer after reset: absent, length 0, no byte written (R36). -/
def OperandBuffer.reset : OperandBuffer where
  present := false
  len := 0
  data := []

/-- The machine right after reset (R36, R240). The hidden registers and the model's own fields are DESIGN CHOICEs
(log 1, log 7, log 9, log 11). -/
def State.reset : State where
  opa := .reset
  opb := .reset
  res := { len := 0, data := [] }
  cmd := 0
  status := 0
  hid := .zero
  inputs := []
  seen := []
  resetNo := 0
  cmdNo := 0

/-- Why a step stops. -/
inductive Fault where
  /-- Raised by a host access (a byte read or write) whose index the buffer does not have (R37; log 10). Safe: the
  spec gives such an access no effect, and the model goes no further. No command raises it. -/
  | noSuchByte (b : Buf) (index : Nat)
  deriving DecidableEq, Repr

/-- Why an instruction has no meaning. -/
inductive Refusal where
  /-- Raised by exec for an instruction not modelled yet, by its mnemonic; safe. Every instruction is modelled, so
  nothing raises it. -/
  | notModelled (mnemonic : String)
  deriving DecidableEq, Repr

end Sys2Proof.Machine
end

