-- ==== Sys2Proof/WellFormed.lean ====
section
/-! DEFINITION. The static checks on inputs. A command has no operand field (30_encoding.md R71), so every `Instr` is
well formed; a host access is well formed when the byte it names exists (10_state.md R37). -/

namespace Sys2Proof

/-- How many bytes a buffer has (R21, R22, R23). -/
def Buf.capacity : Buf → Nat
  | .operand _ => Config.maxLen
  | .res => Config.maxLen + 8

/-- Every command is well formed: the whole word is its opcode (R71, R72). -/
def Instr.wf : Instr → Bool
  | .enc => true
  | .dec => true
  | .genkeys => true
  | .iperm => true
  | .fperm => true
  | .feistel => true
  | .sbox => true

/-- A host access names a byte its buffer has (R37); accesses to whole registers always do. -/
def Input.wf : Input → Bool
  | .wrData b i _ => decide (i < (Buf.operand b).capacity)
  | .wrResData i _ => decide (i < Buf.res.capacity)
  | .rdb b i => decide (i < b.capacity)
  | .wrCmd _ => true
  | .wrPresent _ _ => true
  | .wrLen _ _ => true
  | .wrStatus _ => true
  | .wrResLen _ => true
  | .rd _ => true
  | .reset => true

end Sys2Proof
end

