-- ==== Sys2Proof/Machine/Ops.lean ====
section
/-! DEFINITION. The shared operations: byte storage (10_state.md R37, R38), the end of a command (00_scope.md R15), its
error outcome (60_exceptions.md R212; the engine has no trap and no return, R216, R217) and the order in which errors
are checked (R215). -/

namespace Sys2Proof.Machine

/-! ## Byte storage -/

/-- The canonical form (log 6): indices strictly rising, so none is listed twice. -/
abbrev Memory.wf (m : Memory) : Prop := m.Pairwise fun x y => x.1 < y.1

/-- The byte written at index `i`, if one was. -/
def Memory.byteAt : Memory → Nat → Option Byte
  | [], _ => none
  | (j, b) :: m, i => if j = i then some b else Memory.byteAt m i

/-- Storing one byte keeps the cells in order. -/
def Memory.store : Memory → Nat → Byte → Memory
  | [], i, v => [(i, v)]
  | (j, b) :: m, i, v =>
    if i < j then (i, v) :: (j, b) :: m
    else if i = j then (i, v) :: m
    else (j, b) :: Memory.store m i v

/-- Storing a byte string from index `a` on: `MemWrite` of R14, for a whole number of bytes (R65). -/
def Memory.storeBytes : Memory → Nat → List Byte → Memory
  | m, _, [] => m
  | m, a, b :: bs => Memory.storeBytes (Memory.store m a b) (a + 1) bs

/-- The operand buffer a name stands for. -/
def State.operandBuffer (s : State) : OperandBuf → OperandBuffer
  | .opa => s.opa
  | .opb => s.opb

/-- Replacing one operand buffer. -/
def State.withOperandBuffer (s : State) : OperandBuf → OperandBuffer → State
  | .opa, o => { s with opa := o }
  | .opb, o => { s with opb := o }

/-- OPx_DATA[i]: the last byte the host wrote there, any value before a write (R38, I4; log 4). -/
def State.operandByte (s : State) (b : OperandBuf) (i : Nat) : Byte :=
  (Memory.byteAt (s.operandBuffer b).data i).getD (Config.freeOperandByte s.resetNo b i)

/-- RES_DATA[i]: the result byte below RES_LEN, any value at or above it (R23, I3; log 5). A byte below RES_LEN that
nothing has written does not occur (`State.Inv`); it too reads as a free value. -/
def State.resByte (s : State) (i : Nat) : Byte :=
  if i < s.res.len.toNat then
    (Memory.byteAt s.res.data i).getD (Config.freeResByte s.resetNo s.cmdNo i)
  else Config.freeResByte s.resetNo s.cmdNo i

/-- The result of the last command: RES_DATA[0..RES_LEN-1] (R23). -/
def State.result (s : State) : List Byte := (List.range s.res.len.toNat).map s.resByte

/-! ## The end of a command -/

/-- LASTOP <- CMD[7:0], whatever the outcome (R25, R212; log 14). -/
def State.setStatus (c : Code) (s : State) : State := { s with status := statusWord c (opField s.cmd) }

/-- The end of every command: the hidden state is discarded (R30, R35, R212; log 8), and what RES_DATA holds at and
above RES_LEN is unspecified anew (R55, R212, I3; log 5). -/
def State.endCommand (s : State) : State :=
  { s with hid := Config.freeHidden s.resetNo s.cmdNo, cmdNo := s.cmdNo + 1 }

/-- `complete(r)` (R15, R55): RES_LEN, RES_DATA[0..RES_LEN-1] and STATUS are written; RES_DATA bytes at and above the
new RES_LEN are not. -/
def State.complete (r : List Byte) (s : State) : State :=
  (({ s with res := { len := BitVec.ofNat 32 r.length, data := Memory.storeBytes s.res.data 0 r } } : State).setStatus
    .ok).endCommand

/-- `raise X` (R15, R212): STATUS and RES_LEN = 0, and nothing else the host can see. -/
def State.raise (e : Err) (s : State) : State :=
  (({ s with res := { s.res with len := 0 } } : State).setStatus (.error e)).endCommand

/-- An operand that is present and longer than its buffer (R211 (b)). -/
def State.overCapacity (s : State) (b : OperandBuf) : Bool :=
  (s.operandBuffer b).present && decide (Config.maxLen < (s.operandBuffer b).len.toNat)

/-- One command from its operand checks to its end, in the order of R215: an over-capacity length of an operand the
command uses comes before every outcome of its own `body`. -/
def State.runCommand (used : List OperandBuf) (body : Except Err (List Byte)) (s : State) : State :=
  if used.any s.overCapacity then s.raise .unsupported
  else match body with
    | .ok r => s.complete r
    | .error e => s.raise e

end Sys2Proof.Machine
end

