-- ==== Sys2Proof/Machine/Operands.lean ====
section
/-! DEFINITION. The operand forms: `Operand(S)` (00_scope.md R14), the roles and lengths of 30_encoding.md R73, and the
checks of 60_exceptions.md R213. No operand stands in the command word (R71). -/

namespace Sys2Proof.Machine

/-- `Operand(S)` (R14, R21, R22): `none` is Absent, else the bytes S_DATA[0..S_LEN-1]. -/
def State.operand (s : State) (b : OperandBuf) : Option (List Byte) :=
  if (s.operandBuffer b).present then
    some ((List.range (s.operandBuffer b).len.toNat).map (s.operandByte b))
  else none

/-- The operands a command does not ignore (the OPA and OPB role columns of R73). -/
def usedOperands : Instr → List OperandBuf
  | .enc => [.opa, .opb]
  | .dec => [.opa, .opb]
  | .genkeys => [.opb]
  | .iperm => [.opa]
  | .fperm => [.opa]
  | .feistel => [.opa, .opb]
  | .sbox => [.opa]

/-- An operand of any length: only an absent one is an argument error (R213, ENC's plaintext). -/
def requirePresent : Option (List Byte) → Except Err (List Byte)
  | none => .error .invalidArgument
  | some x => .ok x

/-- An operand of exactly `n` bytes (R213). -/
def requireLen (n : Nat) : Option (List Byte) → Except Err (List Byte)
  | none => .error .invalidArgument
  | some x => if x.length = n then .ok x else .error .invalidArgument

/-- An operand that is a positive multiple of 8 bytes long (R213, DEC's ciphertext). -/
def requireBlocks : Option (List Byte) → Except Err (List Byte)
  | none => .error .invalidArgument
  | some x => if x.length ≠ 0 ∧ x.length % 8 = 0 then .ok x else .error .invalidArgument

/-- A command body over one checked operand. -/
def withOne (a : Except Err (List Byte)) (f : List Byte → Except Err (List Byte)) : Except Err (List Byte) :=
  match a with
  | .error e => .error e
  | .ok x => f x

/-- A command body over two checked operands, both checked before it runs (R213). -/
def withTwo (a b : Except Err (List Byte)) (f : List Byte → List Byte → Except Err (List Byte)) :
    Except Err (List Byte) :=
  withOne a fun x => withOne b fun y => f x y

end Sys2Proof.Machine
end

