-- ==== Sys2Proof/Machine/Permutation.lean ====
section
/-! DEFINITION. The permutation engine: PERM and its tables IP, FP, E and P (40_permutation.md R100 to R109), and the
commands IPERM and FPERM (44_block_engine.md R192, R193). -/

namespace Sys2Proof.Machine

/-- `PERM(T, v)` (R100): output bit i is input bit `T[i]`, both 1-based and MSB-first. Every caller passes the table's
own length as `m` and a value of its domain width, so the width check of R101 is in the types. -/
def perm {n : Nat} (m : Nat) (T : List Nat) (v : BitVec n) : BitVec m :=
  (BitVec.ofBoolListBE (T.map (desBit v))).setWidth m

/-- Table IP (R103). -/
def tableIP : List Nat := [
  58, 50, 42, 34, 26, 18, 10,  2,
  60, 52, 44, 36, 28, 20, 12,  4,
  62, 54, 46, 38, 30, 22, 14,  6,
  64, 56, 48, 40, 32, 24, 16,  8,
  57, 49, 41, 33, 25, 17,  9,  1,
  59, 51, 43, 35, 27, 19, 11,  3,
  61, 53, 45, 37, 29, 21, 13,  5,
  63, 55, 47, 39, 31, 23, 15,  7]

/-- Table FP (R104). -/
def tableFP : List Nat := [
  40,  8, 48, 16, 56, 24, 64, 32,
  39,  7, 47, 15, 55, 23, 63, 31,
  38,  6, 46, 14, 54, 22, 62, 30,
  37,  5, 45, 13, 53, 21, 61, 29,
  36,  4, 44, 12, 52, 20, 60, 28,
  35,  3, 43, 11, 51, 19, 59, 27,
  34,  2, 42, 10, 50, 18, 58, 26,
  33,  1, 41,  9, 49, 17, 57, 25]

/-- Table E (R106). -/
def tableE : List Nat := [
  32,  1,  2,  3,  4,  5,
   4,  5,  6,  7,  8,  9,
   8,  9, 10, 11, 12, 13,
  12, 13, 14, 15, 16, 17,
  16, 17, 18, 19, 20, 21,
  20, 21, 22, 23, 24, 25,
  24, 25, 26, 27, 28, 29,
  28, 29, 30, 31, 32,  1]

/-- Table P (R108). -/
def tableP : List Nat := [
  16,  7, 20, 21, 29, 12, 28, 17,
   1, 15, 23, 26,  5, 18, 31, 10,
   2,  8, 24, 14, 32, 27,  3,  9,
  19, 13, 30,  6, 22, 11,  4, 25]

/-- The initial permutation (R103). -/
def permIP (v : Block) : Block := perm 64 tableIP v

/-- The final permutation (R104). -/
def permFP (v : Block) : Block := perm 64 tableFP v

/-- The expansion (R106). -/
def permE (v : Half) : Subkey := perm 48 tableE v

/-- The permutation of the S-box output (R108). -/
def permP (v : Half) : Half := perm 32 tableP v

/-- IPERM (R192). -/
def ipermBody (a : Option (List Byte)) : Except Err (List Byte) :=
  withOne (requireLen 8 a) fun x => .ok (bytesOf 8 (permIP (be 64 x)))

/-- FPERM (R193). -/
def fpermBody (a : Option (List Byte)) : Except Err (List Byte) :=
  withOne (requireLen 8 a) fun x => .ok (bytesOf 8 (permFP (be 64 x)))

/-- IPERM, opcode 0x04 (R192). -/
def execIperm (s : State) : Host.Outcome State Fault Refusal :=
  .next (s.runCommand (usedOperands .iperm) (ipermBody (s.operand .opa)))

/-- FPERM, opcode 0x05 (R193). -/
def execFperm (s : State) : Host.Outcome State Fault Refusal :=
  .next (s.runCommand (usedOperands .fperm) (fpermBody (s.operand .opa)))

end Sys2Proof.Machine
end

