-- ==== Sys2Proof/Machine/Substitution.lean ====
section
/-! DEFINITION. The S-boxes and the substitution (42_substitution.md R140 to R144), and the command SBOX (R145). -/

namespace Sys2Proof.Machine

/-- S1 (R141). -/
def tableS1 : List (List Nat) := [
  [14,  4, 13,  1,  2, 15, 11,  8,  3, 10,  6, 12,  5,  9,  0,  7],
  [ 0, 15,  7,  4, 14,  2, 13,  1, 10,  6, 12, 11,  9,  5,  3,  8],
  [ 4,  1, 14,  8, 13,  6,  2, 11, 15, 12,  9,  7,  3, 10,  5,  0],
  [15, 12,  8,  2,  4,  9,  1,  7,  5, 11,  3, 14, 10,  0,  6, 13]]

/-- S2 (R141). -/
def tableS2 : List (List Nat) := [
  [15,  1,  8, 14,  6, 11,  3,  4,  9,  7,  2, 13, 12,  0,  5, 10],
  [ 3, 13,  4,  7, 15,  2,  8, 14, 12,  0,  1, 10,  6,  9, 11,  5],
  [ 0, 14,  7, 11, 10,  4, 13,  1,  5,  8, 12,  6,  9,  3,  2, 15],
  [13,  8, 10,  1,  3, 15,  4,  2, 11,  6,  7, 12,  0,  5, 14,  9]]

/-- S3 (R141). -/
def tableS3 : List (List Nat) := [
  [10,  0,  9, 14,  6,  3, 15,  5,  1, 13, 12,  7, 11,  4,  2,  8],
  [13,  7,  0,  9,  3,  4,  6, 10,  2,  8,  5, 14, 12, 11, 15,  1],
  [13,  6,  4,  9,  8, 15,  3,  0, 11,  1,  2, 12,  5, 10, 14,  7],
  [ 1, 10, 13,  0,  6,  9,  8,  7,  4, 15, 14,  3, 11,  5,  2, 12]]

/-- S4 (R141). -/
def tableS4 : List (List Nat) := [
  [ 7, 13, 14,  3,  0,  6,  9, 10,  1,  2,  8,  5, 11, 12,  4, 15],
  [13,  8, 11,  5,  6, 15,  0,  3,  4,  7,  2, 12,  1, 10, 14,  9],
  [10,  6,  9,  0, 12, 11,  7, 13, 15,  1,  3, 14,  5,  2,  8,  4],
  [ 3, 15,  0,  6, 10,  1, 13,  8,  9,  4,  5, 11, 12,  7,  2, 14]]

/-- S5 (R141). -/
def tableS5 : List (List Nat) := [
  [ 2, 12,  4,  1,  7, 10, 11,  6,  8,  5,  3, 15, 13,  0, 14,  9],
  [14, 11,  2, 12,  4,  7, 13,  1,  5,  0, 15, 10,  3,  9,  8,  6],
  [ 4,  2,  1, 11, 10, 13,  7,  8, 15,  9, 12,  5,  6,  3,  0, 14],
  [11,  8, 12,  7,  1, 14,  2, 13,  6, 15,  0,  9, 10,  4,  5,  3]]

/-- S6 (R141). -/
def tableS6 : List (List Nat) := [
  [12,  1, 10, 15,  9,  2,  6,  8,  0, 13,  3,  4, 14,  7,  5, 11],
  [10, 15,  4,  2,  7, 12,  9,  5,  6,  1, 13, 14,  0, 11,  3,  8],
  [ 9, 14, 15,  5,  2,  8, 12,  3,  7,  0,  4, 10,  1, 13, 11,  6],
  [ 4,  3,  2, 12,  9,  5, 15, 10, 11, 14,  1,  7,  6,  0,  8, 13]]

/-- S7 (R141). -/
def tableS7 : List (List Nat) := [
  [ 4, 11,  2, 14, 15,  0,  8, 13,  3, 12,  9,  7,  5, 10,  6,  1],
  [13,  0, 11,  7,  4,  9,  1, 10, 14,  3,  5, 12,  2, 15,  8,  6],
  [ 1,  4, 11, 13, 12,  3,  7, 14, 10, 15,  6,  8,  0,  5,  9,  2],
  [ 6, 11, 13,  8,  1,  4, 10,  7,  9,  5,  0, 15, 14,  2,  3, 12]]

/-- S8 (R141). -/
def tableS8 : List (List Nat) := [
  [13,  2,  8,  4,  6, 15, 11,  1, 10,  9,  3, 14,  5,  0, 12,  7],
  [ 1, 15, 13,  8, 10,  3,  7,  4, 12,  5,  6, 11,  0, 14,  9,  2],
  [ 7, 11,  4,  1,  9, 12, 14,  2,  0,  6, 10, 13, 15,  3,  5,  8],
  [ 2,  1, 14,  7,  4, 10,  8, 13, 15, 12,  9,  0,  3,  5,  6, 11]]

/-- S1..S8 in box order (R140). -/
def tableS : List (List (List Nat)) :=
  [tableS1, tableS2, tableS3, tableS4, tableS5, tableS6, tableS7, tableS8]

/-- `S_n(row, col)`, n = 1..8 (R141). -/
def sboxLookup (n row col : Nat) : BitVec 4 :=
  BitVec.ofNat 4 ((((tableS.getD (n - 1) []).getD row []).getD col 0))

/-- The row of a 6-bit group: its outer bits b0 and b5 (R142). -/
def sboxRow (g : BitVec 6) : Nat := (g.extractLsb' 5 1 ++ g.extractLsb' 0 1).toNat

/-- The column of a 6-bit group: its inner bits b1..b4 (R142). -/
def sboxCol (g : BitVec 6) : Nat := (g.extractLsb' 1 4).toNat

/-- Group s of the input, s = 0..7: `x[47-6s : 42-6s]` (R142). -/
def sboxGroup (x : Subkey) (s : Nat) : BitVec 6 := x.extractLsb' (42 - 6 * s) 6

/-- Lane s: group s through box S(s+1) (R143, R144). -/
def sboxLane (s : Nat) (g : BitVec 6) : BitVec 4 := sboxLookup (s + 1) (sboxRow g) (sboxCol g)

/-- Lane s's result at its place `y[31-4s : 28-4s]` (R143). -/
def substNibble (x : Subkey) (s : Nat) : Half := (sboxLane s (sboxGroup x s)).setWidth 32 <<< (28 - 4 * s)

/-- `SUBST(x)` (R143): the eight lanes' results, each at its place, in box order. -/
def subst (x : Subkey) : Half :=
  substNibble x 0 ||| substNibble x 1 ||| substNibble x 2 ||| substNibble x 3 |||
  substNibble x 4 ||| substNibble x 5 ||| substNibble x 6 ||| substNibble x 7

/-- SBOX (R145). -/
def sboxBody (a : Option (List Byte)) : Except Err (List Byte) :=
  withOne (requireLen 6 a) fun x => .ok (bytesOf 4 (subst (be 48 x)))

/-- SBOX, opcode 0x07 (R145). -/
def execSbox (s : State) : Host.Outcome State Fault Refusal :=
  .next (s.runCommand (usedOperands .sbox) (sboxBody (s.operand .opa)))

end Sys2Proof.Machine
end

