-- ==== Sys2Proof/Machine/Feistel.lean ====
section
/-! DEFINITION. The round function F (43_feistel.md R160) and the command FEISTEL (R162). -/

namespace Sys2Proof.Machine

/-- `F(r, k)` (R160): expansion, exclusive-or with the subkey, substitution, P. -/
def feistelF (r : Half) (k : Subkey) : Half := permP (subst (permE r ^^^ k))

/-- FEISTEL (R162). -/
def feistelBody (a b : Option (List Byte)) : Except Err (List Byte) :=
  withTwo (requireLen 4 a) (requireLen 6 b) fun x y => .ok (bytesOf 4 (feistelF (be 32 x) (be 48 y)))

/-- FEISTEL, opcode 0x06 (R162). -/
def execFeistel (s : State) : Host.Outcome State Fault Refusal :=
  .next (s.runCommand (usedOperands .feistel) (feistelBody (s.operand .opa) (s.operand .opb)))

end Sys2Proof.Machine
end

