-- ==== Sys2Proof/Machine/KeySchedule.lean ====
section
/-! DEFINITION. The key schedule (41_key_schedule.md R120 to R127) and the command GENKEYS (R128). -/

namespace Sys2Proof.Machine

/-- Table PC1 (R120). -/
def tablePC1 : List Nat := [
  57, 49, 41, 33, 25, 17,  9,
   1, 58, 50, 42, 34, 26, 18,
  10,  2, 59, 51, 43, 35, 27,
  19, 11,  3, 60, 52, 44, 36,
  63, 55, 47, 39, 31, 23, 15,
   7, 62, 54, 46, 38, 30, 22,
  14,  6, 61, 53, 45, 37, 29,
  21, 13,  5, 28, 20, 12,  4]

/-- Table PC2 (R125). -/
def tablePC2 : List Nat := [
  14, 17, 11, 24,  1,  5,
   3, 28, 15,  6, 21, 10,
  23, 19, 12,  4, 26,  8,
  16,  7, 27, 20, 13,  2,
  41, 52, 31, 37, 47, 55,
  30, 40, 51, 45, 33, 48,
  44, 49, 39, 56, 34, 53,
  46, 42, 50, 36, 29, 32]

/-- PC-1, 64 to 56 bits (R120). -/
def permPC1 (key : Block) : BitVec 56 := perm 56 tablePC1 key

/-- PC-2, 56 to 48 bits (R125). -/
def permPC2 (cd : BitVec 56) : Subkey := perm 48 tablePC2 cd

/-- SHIFT[r]: 1 bit for rounds 1, 2, 9 and 16, 2 bits for all others (R123). -/
def shiftOf (r : Nat) : Nat := if r = 1 ∨ r = 2 ∨ r = 9 ∨ r = 16 then 1 else 2

/-- `rol_28(v, n)`, the circular left rotation (R121). -/
def rol28 (v : KeyHalf) (n : Nat) : KeyHalf := v.rotateLeft n

/-- The first half after PC-1 (R122). -/
def splitC (t : BitVec 56) : KeyHalf := t.extractLsb' 28 28

/-- The second half after PC-1 (R122). -/
def splitD (t : BitVec 56) : KeyHalf := t.extractLsb' 0 28

/-- `C ‖ D`, C in the upper 28 bits (R124). -/
def joinKey (c d : KeyHalf) : BitVec 56 := c ++ d

/-- One round of the schedule (R124, R126): rotate both halves, then write RKF[r-1]. -/
def Hidden.keygenRound (h : Hidden) (r : Nat) : Hidden :=
  let c := rol28 h.c (shiftOf r)
  let d := rol28 h.d (shiftOf r)
  { h with c := c, d := d, rkf := h.rkf.setIfInBounds (r - 1) (permPC2 (joinKey c d)) }

/-- KEYGEN's start: PC-1 and the split (R122, R126). -/
def Hidden.keygenStart (key : Block) (h : Hidden) : Hidden :=
  { h with c := splitC (permPC1 key), d := splitD (permPC1 key) }

/-- KEYGEN (R126): rounds 1 to 16 in order. -/
def Hidden.keygen (key : Block) (h : Hidden) : Hidden :=
  (List.range' 1 16).foldl Hidden.keygenRound (h.keygenStart key)

/-- The result layout of GENKEYS: subkey j in bytes 6j..6j+5 (R128). -/
def rkfBytes (rkf : Vector Subkey 16) : List Byte := rkf.toList.flatMap (bytesOf 6)

/-- GENKEYS (R128). -/
def genkeysBody (h : Hidden) (b : Option (List Byte)) : Except Err (List Byte) :=
  withOne (requireLen 8 b) fun k => .ok (rkfBytes (h.keygen (be 64 k)).rkf)

/-- GENKEYS, opcode 0x03 (R128). -/
def execGenkeys (s : State) : Host.Outcome State Fault Refusal :=
  .next (s.runCommand (usedOperands .genkeys) (genkeysBody s.hid (s.operand .opb)))

end Sys2Proof.Machine
end

