-- ==== Sys2Proof/Machine/BlockEngine.lean ====
section
/-! DEFINITION. The block engine (44_block_engine.md): one block (R170 to R177), ECB and PKCS#7 (R179 to R184), and the
commands ENC and DEC (R190, R191). -/

namespace Sys2Proof.Machine

/-! ## One block -/

/-- `a ‖ b` of two halves, `a` in bits 63..32 (R10). -/
def joinHalves (a b : Half) : Block := a ++ b

/-- The upper half of a block, bytes 0-3 (R171). -/
def upperHalf (x : Block) : Half := x.extractLsb' 32 32

/-- The lower half of a block, bytes 4-7 (R171). -/
def lowerHalf (x : Block) : Half := x.extractLsb' 0 32

/-- The initial step: IP and split, RND <- 0 (R171). -/
def Hidden.loadBlock (b : Block) (h : Hidden) : Hidden :=
  { h with l := upperHalf (permIP b), r := lowerHalf (permIP b), rnd := 0 }

/-- The subkey of round k = 0..15: RKF[k] to encrypt, RKF[15-k] to decrypt (R172). -/
def subkeyOf (rkf : Vector Subkey 16) (dir : Dir) (k : Nat) : Subkey :=
  match dir with
  | .encrypt => rkf.getD k 0
  | .decrypt => rkf.getD (15 - k) 0

/-- RND + 1, which stops at 16 (R24, R175). -/
def rndNext (k : Fin 17) : Fin 17 := if h : k.val < 16 then ⟨k.val + 1, by omega⟩ else k

/-- ROUND (R173): both new halves come from the old ones. -/
def Hidden.round (h : Hidden) : Hidden :=
  { h with l := h.r, r := h.l ^^^ feistelF h.r (subkeyOf h.rkf h.dir h.rnd.val), rnd := rndNext h.rnd }

/-- `while RND < 16: ROUND` (R174, R175), with a bound on the number of turns. -/
def Hidden.rounds : Nat → Hidden → Hidden
  | 0, h => h
  | n + 1, h => if h.rnd.val < 16 then Hidden.rounds n h.round else h

/-- The pre-output swap: PRE = R_16 ‖ L_16 (R177). -/
def Hidden.preOutput (h : Hidden) : Hidden := { h with pre := joinHalves h.r h.l }

/-- `BLOCK(b, dir)` (R174) on the hidden registers, with DIR and RKF as they stand: the registers afterwards and the
output block FP(PRE) (R176). -/
def Hidden.block (b : Block) (h : Hidden) : Hidden × Block :=
  let h' := (Hidden.rounds 16 (h.loadBlock b)).preOutput
  (h', permFP h'.pre)

/-! ## ECB and PKCS#7 -/

/-- A command sets DIR and NBLK and starts at BLK = 0 (R34, R184). -/
def Hidden.startBlocks (dir : Dir) (n : Nat) (h : Hidden) : Hidden := { h with dir := dir, nblk := n, blk := 0 }

/-- BLK + 1 (R24, R184). -/
def Hidden.nextBlock (h : Hidden) : Hidden := { h with blk := h.blk + 1 }

/-- WBUF is written (R33). -/
def Hidden.setWbuf (x : List Byte) (h : Hidden) : Hidden := { h with wbuf := x }

/-- BLK runs 0..NBLK-1, one BLOCK per value, in ascending order (R63, R179, R184; log 12): the output blocks so far
are `out`, and the first argument bounds the number of turns. -/
def Hidden.ecbLoop (input : List Byte) : Nat → Hidden → List Byte → Hidden × List Byte
  | 0, h, out => (h, out)
  | n + 1, h, out =>
    if h.blk < h.nblk then
      let (h', y) := h.block (blockAt input h.blk)
      Hidden.ecbLoop input n h'.nextBlock (out ++ bytesOf 8 y)
    else (h, out)

/-- The block loop of a command over a buffer of whole blocks (R179, R184). -/
def Hidden.ecb (dir : Dir) (input : List Byte) (h : Hidden) : Hidden × List Byte :=
  Hidden.ecbLoop input (input.length / 8) (h.startBlocks dir (input.length / 8)) []

/-- The pad length of n bytes: 1..8 (R180). -/
def padLen (n : Nat) : Nat := 8 - n % 8

/-- `PAD(p)` (R180). -/
def pad (p : List Byte) : List Byte := p ++ List.replicate (padLen p.length) (BitVec.ofNat 8 (padLen p.length))

/-- `UNPAD(q)` (R181). -/
def unpad (q : List Byte) : Except Err (List Byte) :=
  let n := (q.getLastD 0).toNat
  if n < 1 ∨ 8 < n then .error .cryptoIntegrity
  else if (q.drop (q.length - n)).all (fun b => b.toNat == n) then .ok (q.take (q.length - n))
  else .error .cryptoIntegrity

/-! ## The commands -/

/-- ENC from its checked operands on (R190): KEYGEN, PAD into WBUF, one BLOCK per block. -/
def encRun (h : Hidden) (p k : List Byte) : Hidden × List Byte :=
  let h1 := (h.keygen (be 64 k)).setWbuf (pad p)
  h1.ecb .encrypt h1.wbuf

/-- ENC (R190). -/
def encBody (h : Hidden) (a b : Option (List Byte)) : Except Err (List Byte) :=
  withTwo (requirePresent a) (requireLen 8 b) fun p k => .ok (encRun h p k).2

/-- DEC up to the padding check (R191): KEYGEN, every block decrypted into WBUF. -/
def decRun (h : Hidden) (c k : List Byte) : Hidden :=
  let (h1, out) := (h.keygen (be 64 k)).ecb .decrypt c
  h1.setWbuf out

/-- DEC (R191): UNPAD runs only after every block is done (R184). -/
def decBody (h : Hidden) (a b : Option (List Byte)) : Except Err (List Byte) :=
  withTwo (requireBlocks a) (requireLen 8 b) fun c k => unpad (decRun h c k).wbuf

/-- ENC, opcode 0x01 (R190). -/
def execEnc (s : State) : Host.Outcome State Fault Refusal :=
  .next (s.runCommand (usedOperands .enc) (encBody s.hid (s.operand .opa) (s.operand .opb)))

/-- DEC, opcode 0x02 (R191). -/
def execDec (s : State) : Host.Outcome State Fault Refusal :=
  .next (s.runCommand (usedOperands .dec) (decBody s.hid (s.operand .opa) (s.operand .opb)))

end Sys2Proof.Machine
end

