-- ==== Sys2Proof/Machine/Dispatch.lean ====
section
/-! DEFINITION. exec: one arm per command of 30_encoding.md R72. -/

namespace Sys2Proof.Machine

-- Each arm is one direct call of the command's meaning.
def exec (i : Instr) (s : State) : Host.Outcome State Fault Refusal :=
  match i with
  | .enc => Sys2Proof.Machine.execEnc s
  | .dec => Sys2Proof.Machine.execDec s
  | .genkeys => Sys2Proof.Machine.execGenkeys s
  | .iperm => Sys2Proof.Machine.execIperm s
  | .fperm => Sys2Proof.Machine.execFperm s
  | .feistel => Sys2Proof.Machine.execFeistel s
  | .sbox => Sys2Proof.Machine.execSbox s

end Sys2Proof.Machine
end

