-- ==== Sys2Proof/Machine/HostAccess.lean ====
section
/-! DEFINITION. What the host and the platform do to the engine: host reads and writes (10_state.md R28, R38;
20_memory.md R53, R54), the CMD write that runs one command (R26, R55, R75), RESET (70_reset_and_hazards.md R240), and
the pseudo-instructions of 30_encoding.md R77. -/

namespace Sys2Proof.Machine

/-- A host read of a whole register (R28, R53). -/
def State.readReg (s : State) : Reg → Datum
  | .cmd => .word s.cmd
  | .status => .word s.status
  | .present b => .bit (s.operandBuffer b).present
  | .len b => .word (s.operandBuffer b).len
  | .resLen => .word s.res.len

/-- A host read of one buffer byte (R28, R53). -/
def State.readByte (s : State) : Buf → Nat → Byte
  | .operand b, i => s.operandByte b i
  | .res, i => s.resByte i

/-- What a read returns goes to the host (log 11) and has no other effect (R54). -/
def State.deliver (d : Datum) (s : State) : State := { s with seen := s.seen ++ [d] }

/-- The host writes OPx_PRESENT (R28). -/
def State.setPresent (b : OperandBuf) (v : Bool) (s : State) : State :=
  s.withOperandBuffer b { s.operandBuffer b with present := v }

/-- The host writes OPx_LEN, any 32-bit value (R28, R38). -/
def State.setLen (b : OperandBuf) (v : Word) (s : State) : State :=
  s.withOperandBuffer b { s.operandBuffer b with len := v }

/-- The host writes OPx_DATA[i] (R28, R38). -/
def State.setByte (b : OperandBuf) (i : Nat) (v : Byte) (s : State) : State :=
  s.withOperandBuffer b { s.operandBuffer b with data := Memory.store (s.operandBuffer b).data i v }

/-- CMD takes the word written (R26). -/
def State.setCmd (w : Word) (s : State) : State := { s with cmd := w }

/-- A command word is written to CMD (R26) and runs to its end as one step (R55). An illegal word finishes UNSUPPORTED
and reads no operand (R74, R211 (a), R215; log 13). -/
def commandWrite (w : Word) (s : State) : Host.Outcome State Fault Refusal :=
  match decode w with
  | .command i => exec i (s.setCmd w)
  | .illegal _ => .next ((s.setCmd w).raise .unsupported)

/-- RESET (R240): every piece of the machine's state takes its reset value; what the buffers hold is unspecified anew
(log 9). The host's coming accesses and what it has read are not the engine's (log 1, log 15). -/
def State.assertReset (s : State) : State :=
  { State.reset with inputs := s.inputs, seen := s.seen, resetNo := s.resetNo + 1 }

/-- An access to a byte is made only where the buffer has that byte (R37; log 10). -/
def ifByte (b : Buf) (i : Nat) (t : State) : Host.Outcome State Fault Refusal :=
  if i < b.capacity then .next t else .fault (.noSuchByte b i)

/-- One input (R28, R54, R240). -/
def acceptInput (x : Input) (s : State) : Host.Outcome State Fault Refusal :=
  match x with
  | .wrCmd w => commandWrite w s
  | .wrPresent b v => .next (s.setPresent b v)
  | .wrLen b v => .next (s.setLen b v)
  | .wrData b i v => ifByte (.operand b) i (s.setByte b i v)
  | .wrStatus _ => .next s
  | .wrResLen _ => .next s
  | .wrResData i _ => ifByte .res i s
  | .rd r => .next (s.deliver (s.readReg r))
  | .rdb b i => ifByte b i (s.deliver (.byte (s.readByte b i)))
  | .reset => .next s.assertReset

/-- The inputs still to come after the one being taken. -/
def State.popInput (rest : List Input) (s : State) : State := { s with inputs := rest }

/-- One step of the machine: the next input in the total order of R58. With none left the engine is quiescent and
nothing changes (R248; log 1). -/
def stepInput (s : State) : Host.Outcome State Fault Refusal :=
  match s.inputs with
  | [] => .next s
  | x :: rest => acceptInput x (s.popInput rest)

/-! ## Pseudo-instructions (R77) -/

/-- `WRB` of byte i on, for a byte string. -/
def writeBytesFrom (b : OperandBuf) : Nat → List Byte → List Input
  | _, [] => []
  | i, x :: xs => .wrData b i x :: writeBytesFrom b (i + 1) xs

/-- `LOADA`, `LOADB`. -/
def pseudoLoad (b : OperandBuf) (xs : List Byte) : List Input :=
  .wrPresent b true :: .wrLen b (BitVec.ofNat 32 xs.length) :: writeBytesFrom b 0 xs

/-- `ABSENTA`, `ABSENTB`. -/
def pseudoAbsent (b : OperandBuf) : List Input := [.wrPresent b false]

/-- The seven command mnemonics. -/
def pseudoCommand (i : Instr) : List Input := [.wrCmd (encode i)]

/-- `CMDW`. -/
def pseudoCmdw (w : Word) : List Input := [.wrCmd w]

/-- `READRES`, issued when RES_LEN holds `resLen`. -/
def pseudoReadRes (resLen : Nat) : List Input :=
  .rd .status :: .rd .resLen :: (List.range resLen).map fun i => .rdb .res i

end Sys2Proof.Machine
end

