-- ==== Sys2Proof/Machine/Step.lean ====
section
/-! DEFINITION. The step of the machine, and where a command word comes from. -/

namespace Sys2Proof.Machine

/-- One step: the next input is taken (20_memory.md R55, R58). -/
def step (s : State) : Host.Outcome State Fault Refusal := stepInput s

/-- `s` with the write of a command word to CMD as its next input: the engine fetches nothing (R24), so this is where a
step takes its next command from (log 1). The table's bits above `nbits` are 0. -/
def State.withFetchWord (s : State) (nbits w : Nat) : State :=
  { s with inputs := .wrCmd (BitVec.ofNat 32 (w % 2 ^ nbits)) :: s.inputs }

end Sys2Proof.Machine
end

