-- ==== Sys2Proof/Safety.lean ====
section
/-! DEFINITION. The terms the claims are stated in: the machine's invariant, the relations between the state before and
after a command, and the cipher as pure functions (10_state.md R35: a command is a pure function of its word and its
operands). -/

namespace Sys2Proof.Machine

/-! ## The invariant -/

/-- What every step keeps: the canonical form of the buffers and their capacities (R21 to R23, R37), STATUS as R25
says it reads, and RES holding a result only after OK (R23, R212). -/
structure State.Inv (s : State) : Prop where
  /-- OPA_DATA and OPB_DATA are in canonical form. -/
  operandWf : ∀ b, Memory.wf (s.operandBuffer b).data
  /-- OPA_DATA and OPB_DATA hold no byte at MAXLEN or above. -/
  operandCap : ∀ b, ∀ c ∈ (s.operandBuffer b).data, c.1 < Config.maxLen
  /-- RES_DATA is in canonical form. -/
  resWf : Memory.wf s.res.data
  /-- RES_DATA holds no byte at MAXLEN + 8 or above. -/
  resCap : ∀ c ∈ s.res.data, c.1 < Config.maxLen + 8
  /-- RES_LEN is at most the capacity of RES_DATA. -/
  resFits : s.res.len.toNat ≤ Config.maxLen + 8
  /-- Every byte below RES_LEN has been written. -/
  resWritten : ∀ i, i < s.res.len.toNat → (Memory.byteAt s.res.data i).isSome
  /-- The reserved bits of STATUS read 0. -/
  statusReserved : statusReservedZero s.status = true
  /-- CODE values 5 to 7 are never produced. -/
  codeLegal : (statusCode s.status).toNat ≤ 4
  /-- LASTOP is the OP field of the last command word. -/
  lastop : statusLastop s.status = opField s.cmd
  /-- CODE is NONE only when no command has been written since reset. -/
  codeNone : statusCode s.status = Code.bits .none → s.cmd = 0
  /-- There is no result unless CODE is OK. -/
  errorEmpty : statusCode s.status ≠ Code.bits .ok → s.res.len = 0

/-! ## Before and after a command -/

/-- What no command changes (R21, R22, R26): both operand buffers with every byte of them, CMD, and the host's part of
the state. -/
structure SameInputs (s t : State) : Prop where
  opa : t.opa = s.opa
  opb : t.opb = s.opb
  operandByte : ∀ b i, t.operandByte b i = s.operandByte b i
  cmd : t.cmd = s.cmd
  inputs : t.inputs = s.inputs
  seen : t.seen = s.seen
  resetNo : t.resetNo = s.resetNo

/-- From `s` a command has completed with the result `r` (R15, R55), and `t` is the state after it. -/
structure Completed (s t : State) (r : List Byte) : Prop where
  /-- CODE is OK and LASTOP is CMD[7:0]. -/
  status : t.status = statusWord .ok (opField s.cmd)
  /-- RES_LEN is the length of the result. -/
  len : t.res.len.toNat = r.length
  /-- RES_DATA[0..RES_LEN-1] is the result. -/
  result : t.result = r
  /-- RES_DATA bytes at and above RES_LEN are not written. -/
  above : ∀ i, r.length ≤ i → Memory.byteAt t.res.data i = Memory.byteAt s.res.data i
  /-- Nothing else the host can see changes. -/
  same : SameInputs s t

/-- From `s` a command has ended with the error `e` (R212), and `t` is the state after it. -/
structure Raised (s t : State) (e : Err) : Prop where
  /-- CODE is the error's code and LASTOP is CMD[7:0]. -/
  status : t.status = statusWord (.error e) (opField s.cmd)
  /-- RES_LEN is 0. -/
  len : t.res.len = 0
  /-- No RES_DATA byte is written. -/
  stored : ∀ i, Memory.byteAt t.res.data i = Memory.byteAt s.res.data i
  /-- Every RES_DATA byte reads as an unspecified value. -/
  unspecified : ∀ i, t.resByte i = Config.freeResByte t.resetNo t.cmdNo i
  /-- Nothing else the host can see changes. -/
  same : SameInputs s t

/-! ## The cipher as pure functions -/

/-- C_r (R122, R124). -/
def scheduleC (key : Block) : Nat → KeyHalf
  | 0 => splitC (permPC1 key)
  | r + 1 => rol28 (scheduleC key r) (shiftOf (r + 1))

/-- D_r (R122, R124). -/
def scheduleD (key : Block) : Nat → KeyHalf
  | 0 => splitD (permPC1 key)
  | r + 1 => rol28 (scheduleD key r) (shiftOf (r + 1))

/-- K_r, the subkey of round r = 1..16 (R124). -/
def roundKey (key : Block) (r : Nat) : Subkey := permPC2 (joinKey (scheduleC key r) (scheduleD key r))

/-- The sixteen subkeys in round order (R126): entry j is the subkey of round j + 1. -/
def roundKeys (key : Block) : Vector Subkey 16 := Vector.ofFn fun j => roundKey key (j.val + 1)

/-- One Feistel round on a pair of halves (R173). -/
def roundOn (k : Subkey) (p : Half × Half) : Half × Half := (p.2, p.1 ^^^ feistelF p.2 k)

/-- `BLOCK(b, dir)` with the round keys `rkf` (R174), as a function. -/
def blockOf (rkf : Vector Subkey 16) (dir : Dir) (b : Block) : Block :=
  let p := (List.range 16).foldl (fun p k => roundOn (subkeyOf rkf dir k) p)
    (upperHalf (permIP b), lowerHalf (permIP b))
  permFP (joinHalves p.2 p.1)

/-- BLOCK under a key: DES. -/
def desBlock (key : Block) (dir : Dir) (b : Block) : Block := blockOf (roundKeys key) dir b

/-- ECB over a buffer of whole blocks (R179). -/
def ecbOf (key : Block) (dir : Dir) (x : List Byte) : List Byte :=
  (List.range (x.length / 8)).flatMap fun j => bytesOf 8 (desBlock key dir (blockAt x j))

/-- The padding R181 accepts at the end of a decrypted byte string: its last byte is 1..8 and is the value of that many
last bytes. -/
def PaddingValid (q : List Byte) : Prop :=
  let n := (q.getLastD 0).toNat
  1 ≤ n ∧ n ≤ 8 ∧ ∀ i, q.length - n ≤ i → i < q.length → (q.getD i 0).toNat = n

/-- The argument errors of each command (the table of R213). -/
def InvalidArguments (i : Instr) (a b : Option (List Byte)) : Prop :=
  match i with
  | .enc => a = none ∨ b = none ∨ ∃ k, b = some k ∧ k.length ≠ 8
  | .dec => a = none ∨ b = none ∨ (∃ k, b = some k ∧ k.length ≠ 8) ∨
      ∃ c, a = some c ∧ (c.length = 0 ∨ c.length % 8 ≠ 0)
  | .genkeys => b = none ∨ ∃ k, b = some k ∧ k.length ≠ 8
  | .iperm => a = none ∨ ∃ x, a = some x ∧ x.length ≠ 8
  | .fperm => a = none ∨ ∃ x, a = some x ∧ x.length ≠ 8
  | .feistel => a = none ∨ (∃ x, a = some x ∧ x.length ≠ 4) ∨ b = none ∨ ∃ k, b = some k ∧ k.length ≠ 6
  | .sbox => a = none ∨ ∃ x, a = some x ∧ x.length ≠ 6

/-- No operand the command uses is longer than its buffer (R211 (b)). -/
def WithinCapacity (i : Instr) (s : State) : Prop := ∀ b ∈ usedOperands i, s.overCapacity b = false

end Sys2Proof.Machine
end

