-- ==== Sys2Proof/Certificates/Slice0/Obligations.lean ====
section
/-! DEFINITION. The statements for the provers. Each docstring names the rule of spec/ it formalises. -/

open Sys2Proof Sys2Proof.Machine

/-! ## Encoding -/

/-- R72, a sanity statement: the words of the opcode map decode to their commands, and three illegal words of
95_test_vectors.md §2.8 do not. -/
def Obligations.OpcodeWordsDecode : Prop :=
  decode 0x00000001#32 = .command .enc ∧ decode 0x00000002#32 = .command .dec ∧
  decode 0x00000003#32 = .command .genkeys ∧ decode 0x00000004#32 = .command .iperm ∧
  decode 0x00000005#32 = .command .fperm ∧ decode 0x00000006#32 = .command .feistel ∧
  decode 0x00000007#32 = .command .sbox ∧ decode 0x00000008#32 = .illegal .unknownOp ∧
  decode 0x00000101#32 = .illegal .reservedBits ∧ decode 0x80000002#32 = .illegal .reservedBits

/-- R72, R75: a word decodes to a command exactly when it is that command's whole word, each word is its OP value
zero-extended, and the decoder is total: every word outside 1..7 is illegal. -/
def Obligations.EachWordSelectsOneCommand : Prop :=
  (∀ (w : Word) (i : Instr), decode w = .command i ↔ w = encode i) ∧
  (∀ i : Instr, encode i = (opField (encode i)).setWidth 32) ∧
  (encode .enc = 1 ∧ encode .dec = 2 ∧ encode .genkeys = 3 ∧ encode .iperm = 4 ∧ encode .fperm = 5 ∧
    encode .feistel = 6 ∧ encode .sbox = 7) ∧
  (∀ w : Word, (∃ why, decode w = .illegal why) ↔ w.toNat = 0 ∨ 8 ≤ w.toNat)

/-- R74: a word is illegal exactly when OP is 0x00 or lies in 0x08..0xFF or RSVD is not 0, that is when it is none of
the seven words; written to CMD it finishes UNSUPPORTED with RES_LEN 0, whatever the operands are. -/
def Obligations.IllegalWordFinishesUnsupported : Prop :=
  (∀ w : Word, (opField w = 0 ∨ 8 ≤ (opField w).toNat ∨ rsvdField w ≠ 0) ↔ ∀ i, w ≠ encode i) ∧
  (∀ (s : State) (w : Word) (rest : List Input), s.inputs = .wrCmd w :: rest →
    (opField w = 0 ∨ 8 ≤ (opField w).toNat ∨ rsvdField w ≠ 0) →
    ∃ t, step s = .next t ∧ Raised ((s.popInput rest).setCmd w) t .unsupported)

/-! ## The step -/

/-- R55, R75: a step that takes the write of a command's word to CMD is exec of the decoded command, with CMD written
and the input taken; `withFetchWord` places such a write; and (the model's choice, log 1) with no input left a step
changes nothing. -/
def Obligations.StepRunsTheDecodedCommand : Prop :=
  (∀ (s : State) (w : Word) (rest : List Input) (i : Instr), s.inputs = .wrCmd w :: rest → decode w = .command i →
    step s = exec i ((s.popInput rest).setCmd w)) ∧
  (∀ (s : State) (i : Instr), step (s.withFetchWord 32 (encode i).toNat) = exec i (s.setCmd (encode i))) ∧
  (∀ s : State, s.inputs = [] → step s = .next s)

/-- The invariant (R21 to R23, R25, R37, R212) is kept by every step, from every state that meets it. -/
def Obligations.StepKeepsInvariant : Prop :=
  ∀ s t : State, s.Inv → step s = .next t → t.Inv

/-- The reset state meets the invariant (R36). -/
def Obligations.ResetMeetsInvariant : Prop := State.reset.Inv

/-- R240: RESET gives STATUS, CMD, RES_LEN, PRESENT and LEN the value 0 from every state, and every buffer byte reads as
an unspecified value; the state right after power-on has the same values. It starts no command. -/
def Obligations.ResetGivesTheStatedValues : Prop :=
  (∀ (s : State) (rest : List Input), s.inputs = .reset :: rest → ∃ t, step s = .next t ∧
    t.status = 0 ∧ t.cmd = 0 ∧ t.res.len = 0 ∧ t.opa.present = false ∧ t.opb.present = false ∧
    t.opa.len = 0 ∧ t.opb.len = 0 ∧
    (∀ b i, t.operandByte b i = Config.freeOperandByte t.resetNo b i) ∧
    (∀ i, t.resByte i = Config.freeResByte t.resetNo t.cmdNo i) ∧
    t.inputs = rest ∧ t.seen = s.seen) ∧
  (State.reset.status = 0 ∧ State.reset.cmd = 0 ∧ State.reset.res.len = 0 ∧
    State.reset.opa.present = false ∧ State.reset.opb.present = false ∧
    State.reset.opa.len = 0 ∧ State.reset.opb.len = 0 ∧
    (∀ b i, State.reset.operandByte b i = Config.freeOperandByte State.reset.resetNo b i) ∧
    (∀ i, State.reset.resByte i = Config.freeResByte State.reset.resetNo State.reset.cmdNo i))

/-- R243, its last paragraph: with both operands absent every command finishes INVALID_ARGUMENT. -/
def Obligations.AbsentOperandsAreInvalid : Prop :=
  ∀ (i : Instr) (s : State), s.opa.present = false → s.opb.present = false →
    ∃ t, exec i s = .next t ∧ Raised s t .invalidArgument

/-- R25: after a CMD write the reserved bits of STATUS are 0, CODE is one of 1..4 and LASTOP is the OP field of the word
written, legal or not; RESET makes STATUS 0; no other input changes STATUS, a host write of STATUS included. -/
def Obligations.StatusIsWrittenByCommandsOnly : Prop :=
  ∀ (s t : State) (x : Input) (rest : List Input), s.inputs = x :: rest → step s = .next t →
    match x with
    | .wrCmd w => statusReservedZero t.status = true ∧ 1 ≤ (statusCode t.status).toNat ∧
        (statusCode t.status).toNat ≤ 4 ∧ statusLastop t.status = opField w
    | .reset => t.status = 0
    | _ => t.status = s.status

/-- R27: no command reads STATUS, and every command writes it, whatever the outcome. -/
def Obligations.NoCommandReadsStatus : Prop :=
  (∀ (i : Instr) (s : State) (v : Word), exec i { s with status := v } = exec i s) ∧
  (∀ (i : Instr) (s : State), ∃ t c, exec i s = .next t ∧ c ≠ Code.none ∧ t.status = statusWord c (opField s.cmd))

/-- R26: a host read of CMD returns the last word written, legal or not, and 0 after RESET; nothing else writes CMD. -/
def Obligations.CmdReadsBackTheLastWord : Prop :=
  ∀ (s t : State) (x : Input) (rest : List Input), s.inputs = x :: rest → step s = .next t →
    match x with
    | .wrCmd w => t.readReg .cmd = .word w
    | .reset => t.readReg .cmd = .word 0
    | _ => t.readReg .cmd = s.readReg .cmd

/-! ## Every command: frame and outcome -/

/-- The frame of all seven commands (R21, R22, R26, R55): the operand buffers and each of their bytes, CMD and the
host's part of the state are unchanged; STATUS is a CODE other than NONE with LASTOP = CMD[7:0]; every RES_DATA byte at
or above the new RES_LEN is as it was; there is no result unless CODE is OK. -/
def Obligations.CommandFrame : Prop :=
  ∀ (i : Instr) (s t : State), exec i s = .next t →
    SameInputs s t ∧
    (∀ a, t.res.len.toNat ≤ a → Memory.byteAt t.res.data a = Memory.byteAt s.res.data a) ∧
    ∃ c, c ≠ Code.none ∧ t.status = statusWord c (opField s.cmd) ∧ (c ≠ Code.ok → t.res.len = 0)

/-- R212, R216: a command word that does not end OK, legal or not, writes its code to CODE, CMD[7:0] to LASTOP and 0 to
RES_LEN; no RES_DATA byte is written, all of RES_DATA reads as unspecified, and OPA, OPB and CMD are as they were. -/
def Obligations.ErrorsChangeOnlyStatusAndLength : Prop :=
  ∀ (s t : State) (w : Word) (rest : List Input), s.inputs = .wrCmd w :: rest → step s = .next t →
    statusCode t.status ≠ Code.bits .ok →
    ∃ e, Raised ((s.popInput rest).setCmd w) t e

/-- R215: the outcome is the first that applies of an illegal word, an over-capacity length of a used operand, an
argument error, and (DEC only) bad padding. -/
def Obligations.ErrorPriority : Prop :=
  ∀ (s : State) (w : Word) (rest : List Input), s.inputs = .wrCmd w :: rest →
    ∃ t, step s = .next t ∧
      (∀ why, decode w = .illegal why → statusCode t.status = Code.bits (.error .unsupported)) ∧
      (∀ i, decode w = .command i → ¬ WithinCapacity i s →
        statusCode t.status = Code.bits (.error .unsupported)) ∧
      (∀ i, decode w = .command i → WithinCapacity i s → InvalidArguments i (s.operand .opa) (s.operand .opb) →
        statusCode t.status = Code.bits (.error .invalidArgument)) ∧
      (∀ c k, decode w = .command .dec → WithinCapacity .dec s →
        ¬ InvalidArguments .dec (s.operand .opa) (s.operand .opb) →
        s.operand .opa = some c → s.operand .opb = some k → ¬ PaddingValid (ecbOf (be 64 k) .decrypt c) →
        statusCode t.status = Code.bits (.error .cryptoIntegrity))

/-- R213: within the capacity, a command ends INVALID_ARGUMENT exactly on the argument errors of the table, and then
nothing of RES_DATA has been written. -/
def Obligations.InvalidArgumentExactly : Prop :=
  ∀ (i : Instr) (s : State), WithinCapacity i s → ∃ t, exec i s = .next t ∧
    (statusCode t.status = Code.bits (.error .invalidArgument) ↔
      InvalidArguments i (s.operand .opa) (s.operand .opb)) ∧
    (InvalidArguments i (s.operand .opa) (s.operand .opb) → Raised s t .invalidArgument)

/-- A command word ends UNSUPPORTED exactly when it is illegal or an operand the command uses is present and longer than
MAXLEN. That an illegal word answers a next state with this code is the model's reading (log 13): R74, R212, R215 and I5
give the word that effect, while R211 (a) calls the case a refusal that gives the word no meaning. -/
def Obligations.UnsupportedExactly : Prop :=
  ∀ (s : State) (w : Word) (rest : List Input), s.inputs = .wrCmd w :: rest →
    ∃ t, step s = .next t ∧
      (statusCode t.status = Code.bits (.error .unsupported) ↔
        (∃ why, decode w = .illegal why) ∨
        ∃ i b, decode w = .command i ∧ b ∈ usedOperands i ∧ (s.operandBuffer b).present = true ∧
          Config.maxLen < (s.operandBuffer b).len.toNat)

/-- R210: every command word written to CMD ends in exactly one of the four outcomes, never in NONE; CRYPTO_INTEGRITY
comes from DEC only; OK leaves a result, and each error leaves CODE and LASTOP only. -/
def Obligations.EveryCommandEndsInOneOutcome : Prop :=
  ∀ (s : State) (w : Word) (rest : List Input), s.inputs = .wrCmd w :: rest →
    ∃ t c, step s = .next t ∧ t.status = statusWord c (opField w) ∧
      (c = .ok ∨ c = .error .invalidArgument ∨ c = .error .cryptoIntegrity ∨ c = .error .unsupported) ∧
      (c = .ok ∨ c = .error .invalidArgument → ∃ i, decode w = .command i) ∧
      (c = .error .cryptoIntegrity → decode w = .command .dec) ∧
      (c = .ok → ∃ r, Completed ((s.popInput rest).setCmd w) t r) ∧
      (∀ e, c = .error e → Raised ((s.popInput rest).setCmd w) t e)

/-! ## The host's accesses -/

/-- R54: a host read returns its value and changes nothing; writes of STATUS, RES_LEN and RES_DATA are ignored; a write
of PRESENT, LEN or an operand byte stores its value and changes nothing else; the same word written to CMD twice gives
the same result twice. -/
def Obligations.HostAccessesHaveNoOtherEffect : Prop :=
  ∀ (s : State) (rest : List Input),
    (∀ r, s.inputs = .rd r :: rest →
      step s = .next { s with inputs := rest, seen := s.seen ++ [s.readReg r] }) ∧
    (∀ b i, s.inputs = .rdb b i :: rest → i < b.capacity →
      step s = .next { s with inputs := rest, seen := s.seen ++ [.byte (s.readByte b i)] }) ∧
    (∀ v, s.inputs = .wrStatus v :: rest → step s = .next (s.popInput rest)) ∧
    (∀ v, s.inputs = .wrResLen v :: rest → step s = .next (s.popInput rest)) ∧
    (∀ i v, s.inputs = .wrResData i v :: rest → i < Buf.res.capacity → step s = .next (s.popInput rest)) ∧
    (∀ v, s.inputs = .wrPresent .opa v :: rest →
      step s = .next { s with inputs := rest, opa := { s.opa with present := v } }) ∧
    (∀ v, s.inputs = .wrPresent .opb v :: rest →
      step s = .next { s with inputs := rest, opb := { s.opb with present := v } }) ∧
    (∀ v, s.inputs = .wrLen .opa v :: rest →
      step s = .next { s with inputs := rest, opa := { s.opa with len := v } }) ∧
    (∀ v, s.inputs = .wrLen .opb v :: rest →
      step s = .next { s with inputs := rest, opb := { s.opb with len := v } }) ∧
    (∀ b i v, s.inputs = .wrData b i v :: rest → i < Config.maxLen → ∃ t, step s = .next t ∧
      (∀ c j, t.operandByte c j = if c = b ∧ j = i then v else s.operandByte c j) ∧
      (∀ c, (t.operandBuffer c).present = (s.operandBuffer c).present ∧
        (t.operandBuffer c).len = (s.operandBuffer c).len) ∧
      t = { s with inputs := rest, opa := t.opa, opb := t.opb }) ∧
    (∀ w t u, s.inputs = .wrCmd w :: .wrCmd w :: rest → step s = .next t → step t = .next u →
      u.status = t.status ∧ u.res.len = t.res.len ∧ u.result = t.result)

/-- R38: a host read of an operand byte returns the last value written there, and any value before a write since reset;
LEN keeps any 32-bit value, and a command that uses an operand longer than MAXLEN finishes UNSUPPORTED. -/
def Obligations.OperandStorageIsPlainMemory : Prop :=
  (∀ (s : State) (b : OperandBuf) (i : Nat) (v : Byte) (rest : List Input), s.inputs = .wrData b i v :: rest →
    i < Config.maxLen → ∃ t, step s = .next t ∧ t.readByte (.operand b) i = v ∧
      ∀ c j, (c, j) ≠ (b, i) → t.readByte (.operand c) j = s.readByte (.operand c) j) ∧
  (∀ (s t : State) (rest : List Input), s.inputs = .reset :: rest → step s = .next t →
    ∀ b i, t.readByte (.operand b) i = Config.freeOperandByte t.resetNo b i) ∧
  (∀ (s : State) (b : OperandBuf) (v : Word) (rest : List Input), s.inputs = .wrLen b v :: rest →
    ∃ t, step s = .next t ∧ t.readReg (.len b) = .word v) ∧
  (∀ (i : Instr) (s : State) (b : OperandBuf), b ∈ usedOperands i → (s.operandBuffer b).present = true →
    Config.maxLen < (s.operandBuffer b).len.toNat → ∃ t, exec i s = .next t ∧ Raised s t .unsupported)

/-- The model's choice (log 10): a step faults exactly when its input names a byte its buffer does not have; the fault
of each of the three byte accesses carries the name of that byte; and no step is refused. No command stops. -/
def Obligations.FaultsOnlyOutsideABuffer : Prop :=
  ∀ s : State, ((∃ f, step s = .fault f) ↔ ∃ x rest, s.inputs = x :: rest ∧ x.wf = false) ∧
    (∀ b i rest, s.inputs = .rdb b i :: rest → b.capacity ≤ i → step s = .fault (.noSuchByte b i)) ∧
    (∀ b i v rest, s.inputs = .wrData b i v :: rest → Config.maxLen ≤ i →
      step s = .fault (.noSuchByte (.operand b) i)) ∧
    (∀ i v rest, s.inputs = .wrResData i v :: rest → Buf.res.capacity ≤ i →
      step s = .fault (.noSuchByte .res i)) ∧
    (∀ r, step s ≠ .refused r)

/-- R77: the inputs that LOADA and LOADB stand for make the operand the byte string loaded, and leave the bytes at and
above its length, the other operand, RES, CMD and STATUS as they were. -/
def Obligations.LoadMakesTheOperand : Prop :=
  ∀ (s : State) (b : OperandBuf) (xs : List Byte) (rest : List Input), s.inputs = pseudoLoad b xs ++ rest →
    xs.length ≤ Config.maxLen → ∃ t : State, Host.Core.run Sys2Proof.core (xs.length + 2) s = .next t ∧
      t.operand b = some xs ∧
      (∀ i, xs.length ≤ i → t.operandByte b i = s.operandByte b i) ∧
      (∀ c, c ≠ b → t.operandBuffer c = s.operandBuffer c) ∧
      t.res = s.res ∧ t.cmd = s.cmd ∧ t.status = s.status ∧ t.inputs = rest

/-! ## What a command depends on -/

/-- R35: whatever the hidden registers hold when a step begins, the step ends the same way and leaves the same state in
everything but the hidden registers; a command's whole next state is the same, and no host read sees them. -/
def Obligations.HiddenStateIsNeverObservable : Prop :=
  (∀ (i : Instr) (s : State) (h : Hidden), exec i { s with hid := h } = exec i s) ∧
  (∀ (s t : State) (h : Hidden), step s = .next t →
    ∃ h', step { s with hid := h } = .next { t with hid := h' }) ∧
  (∀ (s : State) (h : Hidden), (∀ r, State.readReg { s with hid := h } r = s.readReg r) ∧
    ∀ b i, State.readByte { s with hid := h } b i = s.readByte b i)

/-- R208: CODE, RES_LEN and RES_DATA[0..RES_LEN-1] after a CMD write are a function of the word and of the operands the
command uses: two states that agree on those, and on nothing else, agree on the outcome. -/
def Obligations.OutcomeIsAFunctionOfTheOperands : Prop :=
  ∀ (s t s' t' : State) (w : Word) (restS restT : List Input),
    s.inputs = .wrCmd w :: restS → t.inputs = .wrCmd w :: restT →
    (∀ i, decode w = .command i → ∀ b ∈ usedOperands i, s.operand b = t.operand b) →
    step s = .next s' → step t = .next t' →
    s'.status = t'.status ∧ s'.res.len = t'.res.len ∧ s'.result = t'.result

/-! ## The seven commands -/

/-- R145, the whole rule: SBOX's word, its result, its two errors and its worked examples. -/
def Obligations.SboxMeetsItsRule : Prop :=
  decode 0x00000007#32 = .command .sbox ∧
  (∀ (s : State) (x : List Byte), s.operand .opa = some x → x.length = 6 →
    ∃ t, exec .sbox s = .next t ∧ Completed s t (bytesOf 4 (subst (be 48 x)))) ∧
  (∀ s : State, s.overCapacity .opa = false → InvalidArguments .sbox (s.operand .opa) (s.operand .opb) →
    ∃ t, exec .sbox s = .next t ∧ Raised s t .invalidArgument) ∧
  (∀ s : State, s.overCapacity .opa = true → ∃ t, exec .sbox s = .next t ∧ Raised s t .unsupported) ∧
  subst 0x000000000000#48 = 0xEFA72C4D#32 ∧ subst 0xFFFFFFFFFFFF#48 = 0xD9CE3DCB#32

/-- R162, the whole rule: FEISTEL's word, its result, its two errors and its worked example. -/
def Obligations.FeistelMeetsItsRule : Prop :=
  decode 0x00000006#32 = .command .feistel ∧
  (∀ (s : State) (x k : List Byte), s.operand .opa = some x → x.length = 4 → s.operand .opb = some k → k.length = 6 →
    ∃ t, exec .feistel s = .next t ∧ Completed s t (bytesOf 4 (feistelF (be 32 x) (be 48 k)))) ∧
  (∀ s : State, s.overCapacity .opa = false → s.overCapacity .opb = false →
    InvalidArguments .feistel (s.operand .opa) (s.operand .opb) →
    ∃ t, exec .feistel s = .next t ∧ Raised s t .invalidArgument) ∧
  (∀ s : State, s.overCapacity .opa = true ∨ s.overCapacity .opb = true →
    ∃ t, exec .feistel s = .next t ∧ Raised s t .unsupported) ∧
  feistelF 0xF0AAF0AA#32 0x1B02EFFC7072#48 = 0x234AA9BB#32

/-- R192, the whole rule: IPERM's word, its result, its two errors, its fixed points and its worked examples. -/
def Obligations.IpermMeetsItsRule : Prop :=
  decode 0x00000004#32 = .command .iperm ∧
  (∀ (s : State) (x : List Byte), s.operand .opa = some x → x.length = 8 →
    ∃ t, exec .iperm s = .next t ∧ Completed s t (bytesOf 8 (permIP (be 64 x)))) ∧
  (∀ s : State, s.overCapacity .opa = false → InvalidArguments .iperm (s.operand .opa) (s.operand .opb) →
    ∃ t, exec .iperm s = .next t ∧ Raised s t .invalidArgument) ∧
  (∀ s : State, s.overCapacity .opa = true → ∃ t, exec .iperm s = .next t ∧ Raised s t .unsupported) ∧
  permIP 0 = 0 ∧ permIP 0xFFFFFFFFFFFFFFFF#64 = 0xFFFFFFFFFFFFFFFF#64 ∧
  permIP 0x0000000000000001#64 = 0x0000008000000000#64 ∧ permIP 0x0123456789ABCDEF#64 = 0xCC00CCFFF0AAF0AA#64

/-- R193, the whole rule: FPERM's word, its result, its two errors, its inverse of IPERM's result and its worked
examples. -/
def Obligations.FpermMeetsItsRule : Prop :=
  decode 0x00000005#32 = .command .fperm ∧
  (∀ (s : State) (x : List Byte), s.operand .opa = some x → x.length = 8 →
    ∃ t, exec .fperm s = .next t ∧ Completed s t (bytesOf 8 (permFP (be 64 x)))) ∧
  (∀ s : State, s.overCapacity .opa = false → InvalidArguments .fperm (s.operand .opa) (s.operand .opb) →
    ∃ t, exec .fperm s = .next t ∧ Raised s t .invalidArgument) ∧
  (∀ s : State, s.overCapacity .opa = true → ∃ t, exec .fperm s = .next t ∧ Raised s t .unsupported) ∧
  (∀ (s t : State) (x : List Byte), s.operand .opa = some x → x.length = 8 → exec .iperm s = .next t →
    ∀ u : State, u.operand .opa = some t.result → ∃ v, exec .fperm u = .next v ∧ Completed u v x) ∧
  permFP 0xFFFFFFFF00000000#64 = 0x5555555555555555#64 ∧ permFP 0xCC00CCFFF0AAF0AA#64 = 0x0123456789ABCDEF#64

/-- R128, the whole rule: GENKEYS' word, its result with subkey j in bytes 6j..6j+5, its two errors and its worked
examples. -/
def Obligations.GenkeysMeetsItsRule : Prop :=
  decode 0x00000003#32 = .command .genkeys ∧
  (∀ (s : State) (k : List Byte), s.operand .opb = some k → k.length = 8 →
    ∃ t, exec .genkeys s = .next t ∧
      Completed s t ((List.range 16).flatMap fun j => bytesOf 6 (roundKey (be 64 k) (j + 1))) ∧
      t.res.len = 96) ∧
  (∀ s : State, s.overCapacity .opb = false → InvalidArguments .genkeys (s.operand .opa) (s.operand .opb) →
    ∃ t, exec .genkeys s = .next t ∧ Raised s t .invalidArgument) ∧
  (∀ s : State, s.overCapacity .opb = true → ∃ t, exec .genkeys s = .next t ∧ Raised s t .unsupported) ∧
  (∀ s : State, s.operand .opb = some (List.replicate 8 0) →
    ∃ t, exec .genkeys s = .next t ∧ Completed s t (List.replicate 96 0)) ∧
  roundKey 0x133457799BBCDFF1#64 1 = 0x1B02EFFC7072#48 ∧ roundKey 0x133457799BBCDFF1#64 16 = 0xCB3D8B0E17F5#48

/-- R190, the whole rule: ENC's word, its result, its two errors, that it never raises CRYPTO_INTEGRITY, and its worked
example. -/
def Obligations.EncMeetsItsRule : Prop :=
  decode 0x00000001#32 = .command .enc ∧
  (∀ (s : State) (p k : List Byte), s.operand .opa = some p → p.length ≤ Config.maxLen →
    s.operand .opb = some k → k.length = 8 →
    ∃ t, exec .enc s = .next t ∧ Completed s t (ecbOf (be 64 k) .encrypt (pad p)) ∧
      t.res.len.toNat = 8 * (p.length / 8 + 1)) ∧
  (∀ s : State, s.overCapacity .opa = false → s.overCapacity .opb = false →
    InvalidArguments .enc (s.operand .opa) (s.operand .opb) →
    ∃ t, exec .enc s = .next t ∧ Raised s t .invalidArgument) ∧
  (∀ s : State, s.overCapacity .opa = true ∨ s.overCapacity .opb = true →
    ∃ t, exec .enc s = .next t ∧ Raised s t .unsupported) ∧
  (∀ s t : State, exec .enc s = .next t → statusCode t.status ≠ Code.bits (.error .cryptoIntegrity)) ∧
  ecbOf 0x133457799BBCDFF1#64 .encrypt (pad (bytesOf 8 0x0123456789ABCDEF#64)) =
    bytesOf 16 0x85E813540F0AB405FDF2E174492922F8#128

/-- R191, the whole rule: DEC's word, its result when the padding is valid, CRYPTO_INTEGRITY when it is not, its other
two errors and its worked example. -/
def Obligations.DecMeetsItsRule : Prop :=
  decode 0x00000002#32 = .command .dec ∧
  (∀ (s : State) (c k : List Byte), s.operand .opa = some c → c.length ≠ 0 → c.length % 8 = 0 →
    c.length ≤ Config.maxLen → s.operand .opb = some k → k.length = 8 →
    PaddingValid (ecbOf (be 64 k) .decrypt c) →
    ∃ t, exec .dec s = .next t ∧
      Completed s t ((ecbOf (be 64 k) .decrypt c).take
        (c.length - ((ecbOf (be 64 k) .decrypt c).getLastD 0).toNat))) ∧
  (∀ (s : State) (c k : List Byte), s.operand .opa = some c → c.length ≠ 0 → c.length % 8 = 0 →
    c.length ≤ Config.maxLen → s.operand .opb = some k → k.length = 8 →
    ¬ PaddingValid (ecbOf (be 64 k) .decrypt c) →
    ∃ t, exec .dec s = .next t ∧ Raised s t .cryptoIntegrity) ∧
  (∀ s : State, s.overCapacity .opa = false → s.overCapacity .opb = false →
    InvalidArguments .dec (s.operand .opa) (s.operand .opb) →
    ∃ t, exec .dec s = .next t ∧ Raised s t .invalidArgument) ∧
  (∀ s : State, s.overCapacity .opa = true ∨ s.overCapacity .opb = true →
    ∃ t, exec .dec s = .next t ∧ Raised s t .unsupported) ∧
  ecbOf 0x133457799BBCDFF1#64 .decrypt (bytesOf 16 0x85E813540F0AB405FDF2E174492922F8#128) =
    pad (bytesOf 8 0x0123456789ABCDEF#64)

/-! ## Bytes and bit permutations -/

/-- R12: byte 0 is the most significant byte of `be`, `bytes_m` is the byte string whose `be` is the value, and DES bit i
is bit 7 - ((i-1) mod 8) of byte (i-1)/8. -/
def Obligations.ByteStringsAndValues : Prop :=
  (∀ (b : Byte) (bs : List Byte), (be (8 * (bs.length + 1)) (b :: bs)).toNat =
    b.toNat * 2 ^ (8 * bs.length) + (be (8 * bs.length) bs).toNat) ∧
  (∀ (m : Nat) (v : BitVec (8 * m)), (bytesOf m v).length = m ∧ be (8 * m) (bytesOf m v) = v) ∧
  (∀ bs : List Byte, bytesOf bs.length (be (8 * bs.length) bs) = bs) ∧
  (∀ (bs : List Byte) (i : Nat), 1 ≤ i → i ≤ 8 * bs.length →
    desBit (be (8 * bs.length) bs) i = (bs.getD ((i - 1) / 8) 0).getLsbD (7 - (i - 1) % 8))

/-- R105: FP inverts IP on every block, both ways, and so do the tables. -/
def Obligations.FinalPermutationInvertsInitial : Prop :=
  (∀ v : Block, permFP (permIP v) = v ∧ permIP (permFP v) = v) ∧
  (∀ i, 1 ≤ i → i ≤ 64 → tableFP.getD (tableIP.getD (i - 1) 0 - 1) 0 = i)

/-- R103, R104, R108: IP, FP and P are bijections: their tables list each index once, and they map values one to one and
onto. -/
def Obligations.PermutationsAreBijections : Prop :=
  tableIP.Perm (List.range' 1 64) ∧ tableFP.Perm (List.range' 1 64) ∧ tableP.Perm (List.range' 1 32) ∧
  Function.Bijective permIP ∧ Function.Bijective permFP ∧ Function.Bijective permP

/-- R107: output group s of E is the input bits 4s..4s+5 with 0 standing for 32 and 33 for 1; it is the input of S-box
s+1; and sixteen input bits appear twice, the others once. -/
def Obligations.ExpansionGroups : Prop :=
  (∀ (v : Half) (s j : Nat), s < 8 → j < 6 →
    desBit (sboxGroup (permE v) s) (j + 1) = desBit (permE v) (6 * s + j + 1) ∧
    desBit (permE v) (6 * s + j + 1) =
      desBit v (if 4 * s + j = 0 then 32 else if 4 * s + j = 33 then 1 else 4 * s + j)) ∧
  (∀ i, 1 ≤ i → i ≤ 32 → tableE.count i =
    if i ∈ [32, 1, 4, 5, 8, 9, 12, 13, 16, 17, 20, 21, 24, 25, 28, 29] then 2 else 1)

/-! ## The key schedule -/

/-- R121: the n bits that leave the top of a 28-bit value re-enter at the bottom, in their order. -/
def Obligations.RotationIsCircular : Prop :=
  (∀ v : KeyHalf, rol28 v 1 = (v.extractLsb' 0 27 ++ v.extractLsb' 27 1 : BitVec 28)) ∧
  (∀ v : KeyHalf, rol28 v 2 = (v.extractLsb' 0 26 ++ v.extractLsb' 26 2 : BitVec 28)) ∧
  rol28 0xF0CCAAF#28 1 = 0xE19955F#28

/-- R123: the shift schedule, its sum, and that after round 16 the key registers hold C0 and D0 again. -/
def Obligations.ShiftScheduleRestoresHalves : Prop :=
  (List.range' 1 16).map shiftOf = [1, 1, 2, 2, 2, 2, 2, 2, 1, 2, 2, 2, 2, 2, 2, 1] ∧
  ((List.range' 1 16).map shiftOf).sum = 28 ∧
  (∀ (h : Hidden) (key : Block), (h.keygen key).c = splitC (permPC1 key) ∧ (h.keygen key).d = splitD (permPC1 key))

/-- R124: whatever the hidden registers held, KEYGEN writes to RKF[r-1] the PC-2 of the halves rotated r times, for
every round r = 1..16. -/
def Obligations.KeygenWritesEverySubkey : Prop :=
  ∀ (h : Hidden) (key : Block) (r : Nat), 1 ≤ r → r ≤ 16 →
    scheduleC key r = rol28 (scheduleC key (r - 1)) (shiftOf r) ∧
    scheduleD key r = rol28 (scheduleD key (r - 1)) (shiftOf r) ∧
    (h.keygen key).rkf.getD (r - 1) 0 = permPC2 (joinKey (scheduleC key r) (scheduleD key r))

/-- R129: (a) the same key gives the same subkeys, whatever was there before; (b) the all-zero key gives all-zero
subkeys; (c) two keys that differ only in the parity bits 8, 16, …, 64 give the same subkeys. -/
def Obligations.ScheduleLaws : Prop :=
  (∀ (h h' : Hidden) (key : Block), (h.keygen key).rkf = (h'.keygen key).rkf) ∧
  (∀ h : Hidden, (h.keygen 0).rkf = Vector.replicate 16 0) ∧
  (∀ (h : Hidden) (k k' : Block), (∀ i, 1 ≤ i → i ≤ 64 → i % 8 ≠ 0 → desBit k i = desBit k' i) →
    (h.keygen k).rkf = (h.keygen k').rkf)

/-! ## The substitution and the round function -/

/-- R144: output nibble s depends on input group s only; each lane maps exactly four groups to each value; and SUBST is
not injective. -/
def Obligations.SubstitutionLanes : Prop :=
  (∀ (x y : Subkey) (s : Nat), s < 8 → sboxGroup x s = sboxGroup y s →
    (subst x).extractLsb' (28 - 4 * s) 4 = (subst y).extractLsb' (28 - 4 * s) 4) ∧
  (∀ s, s < 8 → ∀ y : BitVec 4, ((List.range 64).countP fun g => sboxLane s (BitVec.ofNat 6 g) == y) = 4) ∧
  (∃ x y : Subkey, x ≠ y ∧ subst x = subst y)

/-- R163: F is not injective in the subkey: the rule's two subkeys collide. -/
def Obligations.SubkeysCollide : Prop :=
  (0x1B02EFFC7072#48 ≠ 0x1702EFFC7072#48) ∧
  feistelF 0xF0AAF0AA#32 0x1B02EFFC7072#48 = 0x234AA9BB#32 ∧
  feistelF 0xF0AAF0AA#32 0x1702EFFC7072#48 = 0x234AA9BB#32

/-- R164: complementing both operands of F does not change its result. -/
def Obligations.FeistelComplement : Prop :=
  ∀ (r : Half) (k : Subkey), feistelF (~~~r) (~~~k) = feistelF r k

/-! ## One block -/

/-- R175: RND counts the rounds done, exactly 16 rounds run per block however many turns are allowed, and the canonical
block gives the L_16 and R_16 of the trace. -/
def Obligations.SixteenRoundsPerBlock : Prop :=
  (∀ (h : Hidden) (b : Block) (n : Nat), n ≤ 16 → (Hidden.rounds n (h.loadBlock b)).rnd.val = n) ∧
  (∀ (h : Hidden) (b : Block) (n : Nat), 16 ≤ n →
    Hidden.rounds n (h.loadBlock b) = Hidden.rounds 16 (h.loadBlock b)) ∧
  (∀ h : Hidden, h.dir = .encrypt →
    (Hidden.rounds 16 ((h.keygen 0x133457799BBCDFF1#64).loadBlock 0x0123456789ABCDEF#64)).l = 0x43423234#32 ∧
    (Hidden.rounds 16 ((h.keygen 0x133457799BBCDFF1#64).loadBlock 0x0123456789ABCDEF#64)).r = 0x0A4CD995#32)

/-- R127, R174: the block step on the hidden registers computes the cipher as a function, and changes none of RKF, C, D,
WBUF, DIR, BLK and NBLK. -/
def Obligations.BlockStepComputesTheCipher : Prop :=
  ∀ (h : Hidden) (b : Block), (h.block b).2 = blockOf h.rkf h.dir b ∧
    (h.block b).2 = permFP (h.block b).1.pre ∧
    (h.block b).1.rkf = h.rkf ∧ (h.block b).1.c = h.c ∧ (h.block b).1.d = h.d ∧ (h.block b).1.wbuf = h.wbuf ∧
    (h.block b).1.dir = h.dir ∧ (h.block b).1.blk = h.blk ∧ (h.block b).1.nblk = h.nblk

/-- R178: with any round keys, BLOCK in one direction undoes BLOCK in the other. -/
def Obligations.BlockInvertsItself : Prop :=
  ∀ (h h' : Hidden) (b : Block), h'.rkf = h.rkf →
    (h.dir = .encrypt → h'.dir = .decrypt → (h'.block (h.block b).2).2 = b) ∧
    (h.dir = .decrypt → h'.dir = .encrypt → (h'.block (h.block b).2).2 = b)

/-- R199: complementing the key complements every subkey, and complementing the key and the block complements the
result, in both directions. -/
def Obligations.BlockComplement : Prop :=
  (∀ (h : Hidden) (key : Block) (j : Nat), j < 16 →
    (h.keygen (~~~key)).rkf.getD j 0 = ~~~((h.keygen key).rkf.getD j 0)) ∧
  (∀ (h : Hidden) (key b : Block),
    ((h.keygen (~~~key)).block (~~~b)).2 = ~~~((h.keygen key).block b).2) ∧
  desBlock (~~~0x133457799BBCDFF1#64) .encrypt (~~~0x0123456789ABCDEF#64) = 0x7A17ECABF0F54BFA#64 ∧
  0x7A17ECABF0F54BFA#64 = ~~~0x85E813540F0AB405#64

/-- R200: with sixteen equal subkeys two encryptions give the block back; the four keys of the rule have such
schedules; and ENC accepts them. -/
def Obligations.WeakKeys : Prop :=
  (∀ (h : Hidden) (b : Block), (∀ i j, i < 16 → j < 16 → h.rkf.getD i 0 = h.rkf.getD j 0) → h.dir = .encrypt →
    (h.block (h.block b).2).2 = b) ∧
  (∀ key ∈ [0x0101010101010101#64, 0xFEFEFEFEFEFEFEFE#64, 0xE0E0E0E0F1F1F1F1#64, 0x1F1F1F1F0E0E0E0E#64],
    (∀ (h : Hidden) (i j : Nat), i < 16 → j < 16 → (h.keygen key).rkf.getD i 0 = (h.keygen key).rkf.getD j 0) ∧
    (∀ b : Block, desBlock key .encrypt (desBlock key .encrypt b) = b) ∧
    (∀ (s : State) (p : List Byte), s.operand .opa = some p → p.length ≤ Config.maxLen →
      s.operand .opb = some (bytesOf 8 key) →
      ∃ t, exec .enc s = .next t ∧ statusCode t.status = Code.bits .ok))

/-! ## ECB and PKCS#7 -/

/-- R179: the loop over a buffer of whole blocks writes BLOCK of input block j, and of nothing else, at bytes 8j..8j+7
of the output, with one set of round keys. -/
def Obligations.EcbBlocksAreIndependent : Prop :=
  ∀ (h : Hidden) (dir : Dir) (x : List Byte), x.length % 8 = 0 →
    (h.ecb dir x).2.length = x.length ∧ (h.ecb dir x).1.rkf = h.rkf ∧
    ∀ j, j < x.length / 8 → blockAt (h.ecb dir x).2 j = blockOf h.rkf dir (blockAt x j)

/-- R180, R181: PAD appends 1 to 8 bytes of value their number, up to the next multiple of 8; UNPAD accepts exactly the
byte strings whose padding is valid, and gives back what PAD was given. -/
def Obligations.UnpadStripsPadding : Prop :=
  (∀ p : List Byte, (pad p).length = 8 * (p.length / 8 + 1) ∧ p <+: pad p ∧ PaddingValid (pad p) ∧
    ((pad p).getLastD 0).toNat = 8 - p.length % 8) ∧
  (∀ p : List Byte, unpad (pad p) = .ok p) ∧
  (∀ q : List Byte, q.length ≠ 0 → q.length % 8 = 0 → ∀ r, unpad q = .ok r ↔
    PaddingValid q ∧ r = q.take (q.length - (q.getLastD 0).toNat)) ∧
  (∀ q : List Byte, q.length ≠ 0 → q.length % 8 = 0 → ¬ PaddingValid q → unpad q = .error .cryptoIntegrity)

/-- R182, R195: ENC of n bytes gives 8*(n/8+1) bytes, a positive multiple of 8 between n+1 and n+8, at most MAXLEN + 8
and exactly that for n = MAXLEN; DEC of m bytes that ends OK gives between m-8 and m-1 bytes. -/
def Obligations.ResultLengths : Prop :=
  (∀ (s t : State) (p : List Byte), s.operand .opa = some p → exec .enc s = .next t →
    statusCode t.status = Code.bits .ok →
    t.res.len.toNat = 8 * (p.length / 8 + 1) ∧ t.result.length = 8 * (p.length / 8 + 1) ∧
    p.length + 1 ≤ t.result.length ∧ t.result.length ≤ p.length + 8 ∧ t.result.length ≤ Config.maxLen + 8 ∧
    (p.length = Config.maxLen → t.result.length = Config.maxLen + 8)) ∧
  (∀ (s t : State) (c : List Byte), s.operand .opa = some c → exec .dec s = .next t →
    statusCode t.status = Code.bits .ok →
    c.length ≤ t.result.length + 8 ∧ t.result.length + 1 ≤ c.length)

/-- R183: ENC of the empty plaintext gives one block, the encryption of eight bytes 0x08; an absent plaintext is
INVALID_ARGUMENT. -/
def Obligations.EmptyPlaintext : Prop :=
  (∀ (s : State) (k : List Byte), s.operand .opa = some [] → s.operand .opb = some k → k.length = 8 →
    ∃ t, exec .enc s = .next t ∧
      Completed s t (bytesOf 8 (desBlock (be 64 k) .encrypt 0x0808080808080808#64)) ∧ t.res.len = 8) ∧
  (∀ (s : State) (k : List Byte), s.operand .opa = none → s.operand .opb = some k → k.length = 8 →
    ∃ t, exec .enc s = .next t ∧ Raised s t .invalidArgument)

/-- R198: equal blocks at any positions of one plaintext give equal ciphertext blocks, and a block's ciphertext under a
key does not depend on the rest of the plaintext; the rule's example. -/
def Obligations.EqualBlocksEncryptEqually : Prop :=
  (∀ (s t : State) (p : List Byte) (i j : Nat), s.operand .opa = some p → exec .enc s = .next t →
    statusCode t.status = Code.bits .ok → 8 * i + 8 ≤ p.length → 8 * j + 8 ≤ p.length →
    blockAt p i = blockAt p j → blockAt t.result i = blockAt t.result j) ∧
  (∀ (s t s' t' : State) (p p' : List Byte) (j : Nat), s.operand .opa = some p → s'.operand .opa = some p' →
    s.operand .opb = s'.operand .opb → exec .enc s = .next t → exec .enc s' = .next t' →
    statusCode t.status = Code.bits .ok → statusCode t'.status = Code.bits .ok →
    8 * j + 8 ≤ p.length → 8 * j + 8 ≤ p'.length → blockAt p j = blockAt p' j →
    blockAt t.result j = blockAt t'.result j) ∧
  desBlock 0x133457799BBCDFF1#64 .encrypt 0x0102030405060708#64 = 0x118199C3180EEB27#64

/-- R194, for every plaintext shorter than MAXLEN: ENC succeeds, and DEC of its result under the same key succeeds with
the plaintext. A plaintext of exactly MAXLEN bytes has a ciphertext of MAXLEN + 8 bytes, which no operand buffer holds
(R21, R211), so there DEC finishes UNSUPPORTED and R194 as written does not hold of an engine with finite buffers (log
17); on the byte strings themselves the round trip has no bound. -/
def Obligations.EncryptDecryptRoundTrip : Prop :=
  (∀ (s : State) (p k : List Byte), s.operand .opa = some p → p.length < Config.maxLen →
    s.operand .opb = some k → k.length = 8 →
    ∃ t, exec .enc s = .next t ∧ statusCode t.status = Code.bits .ok ∧
      ∀ u : State, u.operand .opa = some t.result → u.operand .opb = some k →
        ∃ v, exec .dec u = .next v ∧ Completed u v p) ∧
  (∀ (s : State) (p k : List Byte), s.operand .opa = some p → p.length = Config.maxLen →
    s.operand .opb = some k → k.length = 8 →
    ∃ t, exec .enc s = .next t ∧ statusCode t.status = Code.bits .ok ∧
      ∀ u : State, u.operand .opa = some t.result → ∃ v, exec .dec u = .next v ∧ Raised u v .unsupported) ∧
  (∀ (p : List Byte) (key : Block), unpad (ecbOf key .decrypt (ecbOf key .encrypt (pad p))) = .ok p)

/-- R196, R197: with operands that pass the checks DEC ends OK exactly when the last decrypted byte is 1..8 and is the
value of that many last bytes, and ends CRYPTO_INTEGRITY otherwise; no other command ends so. The canonical ciphertext
with its last byte made 00 or 09 fails, because of its last decrypted block; the ciphertext of 0000004F with its last
byte made 00 is accepted. -/
def Obligations.IntegrityErrorExactly : Prop :=
  (∀ (s : State) (c k : List Byte), s.operand .opa = some c → c.length ≠ 0 → c.length % 8 = 0 →
    c.length ≤ Config.maxLen → s.operand .opb = some k → k.length = 8 →
    ∃ t, exec .dec s = .next t ∧
      (statusCode t.status = Code.bits .ok ↔ PaddingValid (ecbOf (be 64 k) .decrypt c)) ∧
      (statusCode t.status = Code.bits (.error .cryptoIntegrity) ↔ ¬ PaddingValid (ecbOf (be 64 k) .decrypt c))) ∧
  (∀ (i : Instr) (s t : State), exec i s = .next t →
    statusCode t.status = Code.bits (.error .cryptoIntegrity) → i = .dec) ∧
  (∀ s : State, s.operand .opb = some (bytesOf 8 0x133457799BBCDFF1#64) →
    (s.operand .opa = some (bytesOf 16 0x85E813540F0AB405FDF2E17449292200#128) →
      ∃ t, exec .dec s = .next t ∧ Raised s t .cryptoIntegrity) ∧
    (s.operand .opa = some (bytesOf 16 0x85E813540F0AB405FDF2E17449292209#128) →
      ∃ t, exec .dec s = .next t ∧ Raised s t .cryptoIntegrity) ∧
    (s.operand .opa = some (bytesOf 4 0x0000004F#32) →
      ∃ t, exec .enc s = .next t ∧ Completed s t (bytesOf 8 0x8839769FE1D1E2FE#64)) ∧
    (s.operand .opa = some (bytesOf 8 0x8839769FE1D1E200#64) →
      ∃ t, exec .dec s = .next t ∧ Completed s t (bytesOf 7 0x06D941C4941EDA#56))) ∧
  desBlock 0x133457799BBCDFF1#64 .decrypt 0xFDF2E17449292200#64 = 0xDD401A76A74AF31E#64 ∧
  desBlock 0x133457799BBCDFF1#64 .decrypt 0xFDF2E17449292209#64 = 0x7A060D5EA0E6D586#64
end

