-- ==== Sys2Proof/Laws/State.lean ====
section
/-! SUPPORT. One lemma per field per named update of the state, so that no later proof unfolds a record update. -/

namespace Sys2Proof.Machine

variable (s : State)

/-! ## setStatus and endCommand -/

@[simp] theorem State.setStatus_opa (c : Code) : (s.setStatus c).opa = s.opa := rfl
@[simp] theorem State.setStatus_opb (c : Code) : (s.setStatus c).opb = s.opb := rfl
@[simp] theorem State.setStatus_res (c : Code) : (s.setStatus c).res = s.res := rfl
@[simp] theorem State.setStatus_cmd (c : Code) : (s.setStatus c).cmd = s.cmd := rfl
@[simp] theorem State.setStatus_status (c : Code) : (s.setStatus c).status = statusWord c (opField s.cmd) := rfl
@[simp] theorem State.setStatus_inputs (c : Code) : (s.setStatus c).inputs = s.inputs := rfl
@[simp] theorem State.setStatus_seen (c : Code) : (s.setStatus c).seen = s.seen := rfl
@[simp] theorem State.setStatus_resetNo (c : Code) : (s.setStatus c).resetNo = s.resetNo := rfl
@[simp] theorem State.setStatus_cmdNo (c : Code) : (s.setStatus c).cmdNo = s.cmdNo := rfl

@[simp] theorem State.endCommand_opa : s.endCommand.opa = s.opa := rfl
@[simp] theorem State.endCommand_opb : s.endCommand.opb = s.opb := rfl
@[simp] theorem State.endCommand_res : s.endCommand.res = s.res := rfl
@[simp] theorem State.endCommand_cmd : s.endCommand.cmd = s.cmd := rfl
@[simp] theorem State.endCommand_status : s.endCommand.status = s.status := rfl
@[simp] theorem State.endCommand_hid : s.endCommand.hid = Config.freeHidden s.resetNo s.cmdNo := rfl
@[simp] theorem State.endCommand_inputs : s.endCommand.inputs = s.inputs := rfl
@[simp] theorem State.endCommand_seen : s.endCommand.seen = s.seen := rfl
@[simp] theorem State.endCommand_resetNo : s.endCommand.resetNo = s.resetNo := rfl
@[simp] theorem State.endCommand_cmdNo : s.endCommand.cmdNo = s.cmdNo + 1 := rfl

/-! ## complete -/

@[simp] theorem State.complete_opa (r : List Byte) : (s.complete r).opa = s.opa := rfl
@[simp] theorem State.complete_opb (r : List Byte) : (s.complete r).opb = s.opb := rfl
@[simp] theorem State.complete_resLen (r : List Byte) : (s.complete r).res.len = BitVec.ofNat 32 r.length := rfl
@[simp] theorem State.complete_resData (r : List Byte) :
    (s.complete r).res.data = Memory.storeBytes s.res.data 0 r := rfl
@[simp] theorem State.complete_cmd (r : List Byte) : (s.complete r).cmd = s.cmd := rfl
@[simp] theorem State.complete_status (r : List Byte) :
    (s.complete r).status = statusWord .ok (opField s.cmd) := rfl
@[simp] theorem State.complete_hid (r : List Byte) : (s.complete r).hid = Config.freeHidden s.resetNo s.cmdNo := rfl
@[simp] theorem State.complete_inputs (r : List Byte) : (s.complete r).inputs = s.inputs := rfl
@[simp] theorem State.complete_seen (r : List Byte) : (s.complete r).seen = s.seen := rfl
@[simp] theorem State.complete_resetNo (r : List Byte) : (s.complete r).resetNo = s.resetNo := rfl
@[simp] theorem State.complete_cmdNo (r : List Byte) : (s.complete r).cmdNo = s.cmdNo + 1 := rfl

/-! ## raise -/

@[simp] theorem State.raise_opa (e : Err) : (s.raise e).opa = s.opa := rfl
@[simp] theorem State.raise_opb (e : Err) : (s.raise e).opb = s.opb := rfl
@[simp] theorem State.raise_resLen (e : Err) : (s.raise e).res.len = 0 := rfl
@[simp] theorem State.raise_resData (e : Err) : (s.raise e).res.data = s.res.data := rfl
@[simp] theorem State.raise_cmd (e : Err) : (s.raise e).cmd = s.cmd := rfl
@[simp] theorem State.raise_status (e : Err) : (s.raise e).status = statusWord (.error e) (opField s.cmd) := rfl
@[simp] theorem State.raise_hid (e : Err) : (s.raise e).hid = Config.freeHidden s.resetNo s.cmdNo := rfl
@[simp] theorem State.raise_inputs (e : Err) : (s.raise e).inputs = s.inputs := rfl
@[simp] theorem State.raise_seen (e : Err) : (s.raise e).seen = s.seen := rfl
@[simp] theorem State.raise_resetNo (e : Err) : (s.raise e).resetNo = s.resetNo := rfl
@[simp] theorem State.raise_cmdNo (e : Err) : (s.raise e).cmdNo = s.cmdNo + 1 := rfl

/-! ## The host's updates -/

@[simp] theorem State.withOperandBuffer_same (b : OperandBuf) (o : OperandBuffer) :
    (s.withOperandBuffer b o).operandBuffer b = o := by cases b <;> rfl
theorem State.withOperandBuffer_other {b c : OperandBuf} (h : c ≠ b) (o : OperandBuffer) :
    (s.withOperandBuffer b o).operandBuffer c = s.operandBuffer c := by cases b <;> cases c <;> trivial
@[simp] theorem State.withOperandBuffer_res (b : OperandBuf) (o : OperandBuffer) :
    (s.withOperandBuffer b o).res = s.res := by cases b <;> rfl
@[simp] theorem State.withOperandBuffer_cmd (b : OperandBuf) (o : OperandBuffer) :
    (s.withOperandBuffer b o).cmd = s.cmd := by cases b <;> rfl
@[simp] theorem State.withOperandBuffer_status (b : OperandBuf) (o : OperandBuffer) :
    (s.withOperandBuffer b o).status = s.status := by cases b <;> rfl
@[simp] theorem State.withOperandBuffer_hid (b : OperandBuf) (o : OperandBuffer) :
    (s.withOperandBuffer b o).hid = s.hid := by cases b <;> rfl
@[simp] theorem State.withOperandBuffer_inputs (b : OperandBuf) (o : OperandBuffer) :
    (s.withOperandBuffer b o).inputs = s.inputs := by cases b <;> rfl
@[simp] theorem State.withOperandBuffer_seen (b : OperandBuf) (o : OperandBuffer) :
    (s.withOperandBuffer b o).seen = s.seen := by cases b <;> rfl
@[simp] theorem State.withOperandBuffer_resetNo (b : OperandBuf) (o : OperandBuffer) :
    (s.withOperandBuffer b o).resetNo = s.resetNo := by cases b <;> rfl
@[simp] theorem State.withOperandBuffer_cmdNo (b : OperandBuf) (o : OperandBuffer) :
    (s.withOperandBuffer b o).cmdNo = s.cmdNo := by cases b <;> rfl

@[simp] theorem State.deliver_opa (d : Datum) : (s.deliver d).opa = s.opa := rfl
@[simp] theorem State.deliver_opb (d : Datum) : (s.deliver d).opb = s.opb := rfl
@[simp] theorem State.deliver_res (d : Datum) : (s.deliver d).res = s.res := rfl
@[simp] theorem State.deliver_cmd (d : Datum) : (s.deliver d).cmd = s.cmd := rfl
@[simp] theorem State.deliver_status (d : Datum) : (s.deliver d).status = s.status := rfl
@[simp] theorem State.deliver_hid (d : Datum) : (s.deliver d).hid = s.hid := rfl
@[simp] theorem State.deliver_inputs (d : Datum) : (s.deliver d).inputs = s.inputs := rfl
@[simp] theorem State.deliver_seen (d : Datum) : (s.deliver d).seen = s.seen ++ [d] := rfl
@[simp] theorem State.deliver_resetNo (d : Datum) : (s.deliver d).resetNo = s.resetNo := rfl
@[simp] theorem State.deliver_cmdNo (d : Datum) : (s.deliver d).cmdNo = s.cmdNo := rfl

@[simp] theorem State.popInput_opa (xs : List Input) : (s.popInput xs).opa = s.opa := rfl
@[simp] theorem State.popInput_opb (xs : List Input) : (s.popInput xs).opb = s.opb := rfl
@[simp] theorem State.popInput_res (xs : List Input) : (s.popInput xs).res = s.res := rfl
@[simp] theorem State.popInput_cmd (xs : List Input) : (s.popInput xs).cmd = s.cmd := rfl
@[simp] theorem State.popInput_status (xs : List Input) : (s.popInput xs).status = s.status := rfl
@[simp] theorem State.popInput_hid (xs : List Input) : (s.popInput xs).hid = s.hid := rfl
@[simp] theorem State.popInput_inputs (xs : List Input) : (s.popInput xs).inputs = xs := rfl
@[simp] theorem State.popInput_seen (xs : List Input) : (s.popInput xs).seen = s.seen := rfl
@[simp] theorem State.popInput_resetNo (xs : List Input) : (s.popInput xs).resetNo = s.resetNo := rfl
@[simp] theorem State.popInput_cmdNo (xs : List Input) : (s.popInput xs).cmdNo = s.cmdNo := rfl

@[simp] theorem State.setCmd_opa (w : Word) : (s.setCmd w).opa = s.opa := rfl
@[simp] theorem State.setCmd_opb (w : Word) : (s.setCmd w).opb = s.opb := rfl
@[simp] theorem State.setCmd_res (w : Word) : (s.setCmd w).res = s.res := rfl
@[simp] theorem State.setCmd_status (w : Word) : (s.setCmd w).status = s.status := rfl
@[simp] theorem State.setCmd_hid (w : Word) : (s.setCmd w).hid = s.hid := rfl
@[simp] theorem State.setCmd_inputs (w : Word) : (s.setCmd w).inputs = s.inputs := rfl
@[simp] theorem State.setCmd_seen (w : Word) : (s.setCmd w).seen = s.seen := rfl
@[simp] theorem State.setCmd_resetNo (w : Word) : (s.setCmd w).resetNo = s.resetNo := rfl
@[simp] theorem State.setCmd_cmdNo (w : Word) : (s.setCmd w).cmdNo = s.cmdNo := rfl
@[simp] theorem State.setCmd_cmd (w : Word) : (s.setCmd w).cmd = w := rfl

/-! ## Reads that depend on a few fields only -/

theorem State.operandBuffer_congr {s t : State} (ha : t.opa = s.opa) (hb : t.opb = s.opb) (b : OperandBuf) :
    t.operandBuffer b = s.operandBuffer b := by cases b <;> assumption

theorem State.operandByte_congr {s t : State} (ha : t.opa = s.opa) (hb : t.opb = s.opb) (hn : t.resetNo = s.resetNo)
    (b : OperandBuf) (i : Nat) : t.operandByte b i = s.operandByte b i := by
  simp only [State.operandByte, State.operandBuffer_congr ha hb, hn]

theorem State.operand_congr {s t : State} (ha : t.opa = s.opa) (hb : t.opb = s.opb) (hn : t.resetNo = s.resetNo)
    (b : OperandBuf) : t.operand b = s.operand b := by
  simp only [State.operand, State.operandBuffer_congr ha hb, funext (State.operandByte_congr ha hb hn b)]

/-- The length of a present operand is its LEN register. -/
theorem State.operand_length {s : State} {b : OperandBuf} {x : List Byte} (h : s.operand b = some x) :
    (s.operandBuffer b).present = true ∧ x.length = (s.operandBuffer b).len.toNat := by
  unfold State.operand at h
  split at h
  · next hp => cases h; simp [hp]
  · cases h

end Sys2Proof.Machine
end

