-- ==== Sys2Proof/Laws/Bits.lean ====
section
/-! SUPPORT. Byte order and the permutation primitive: what one bit or byte of their results is. -/

namespace Sys2Proof.Machine

@[simp] theorem bytesOf_length {n : Nat} (m : Nat) (v : BitVec n) : (bytesOf m v).length = m := by
  simp [bytesOf]

/-- Byte i of `bytes_m(v)` is bits 8(m-1-i)+7 .. 8(m-1-i) of v (R12). -/
theorem bytesOf_getElem {n m : Nat} (v : BitVec n) {i : Nat} (h : i < (bytesOf m v).length) :
    (bytesOf m v)[i] = v.extractLsb' (8 * (m - 1 - i)) 8 := by
  simp [bytesOf]

/-- Output bit i of PERM is input bit T[i] (R100), with 0-based positions. -/
theorem perm_getMsbD {n m : Nat} (T : List Nat) (v : BitVec n) (hm : T.length = m) {i : Nat} (h : i < T.length) :
    (perm m T v).getMsbD i = desBit v T[i] := by
  subst hm
  have hl : (T.map (desBit v)).length = T.length := by simp
  simp only [perm, BitVec.getMsbD_setWidth, hl, Nat.sub_self, Nat.zero_le, decide_true, Bool.true_and]
  rw [BitVec.getMsbD_ofBoolListBE]
  simp [h]

/-- The same with the table read by `getD`, for a whole table and a 0-based output position below its width. -/
theorem perm_getMsbD_getD {n m : Nat} (T : List Nat) (v : BitVec n) (hm : T.length = m) {i : Nat} (h : i < m) :
    (perm m T v).getMsbD i = v.getMsbD (T.getD i 0 - 1) := by
  have hi : i < T.length := by omega
  rw [perm_getMsbD T v hm hi, desBit, List.getD_eq_getElem?_getD, List.getElem?_eq_getElem hi, Option.getD_some]

/-! ## Joins and halves -/

/-- Bit i of `C ‖ D`, counted from the top. -/
theorem joinKey_getMsbD (c d : KeyHalf) (i : Nat) :
    (joinKey c d).getMsbD i = if i < 28 then c.getMsbD i else d.getMsbD (i - 28) := by
  show (c ++ d).getMsbD i = _
  rw [BitVec.getMsbD_append]
  by_cases h : i < 28 <;> simp [h]

/-- Bit i of `a ‖ b`, counted from the top. -/
theorem joinHalves_getMsbD (a b : Half) (i : Nat) :
    (joinHalves a b).getMsbD i = if i < 32 then a.getMsbD i else b.getMsbD (i - 32) := by
  show (a ++ b).getMsbD i = _
  rw [BitVec.getMsbD_append]
  by_cases h : i < 32 <;> simp [h]

@[simp] theorem upperHalf_joinHalves (a b : Half) : upperHalf (joinHalves a b) = a :=
  BitVec.extractLsb'_append_eq_left

@[simp] theorem lowerHalf_joinHalves (a b : Half) : lowerHalf (joinHalves a b) = b :=
  BitVec.extractLsb'_append_eq_right

@[simp] theorem joinHalves_halves (x : Block) : joinHalves (upperHalf x) (lowerHalf x) = x := by
  apply BitVec.eq_of_toNat_eq
  simp only [joinHalves, upperHalf, lowerHalf, BitVec.toNat_append, BitVec.extractLsb'_toNat, Nat.shiftRight_zero]
  rw [← Nat.shiftLeft_add_eq_or_of_lt (Nat.mod_lt _ (by decide)), Nat.shiftLeft_eq, Nat.shiftRight_eq_div_pow]
  have := x.isLt
  omega

end Sys2Proof.Machine
end

