-- ==== Sys2Proof/Laws/Memory.lean ====
section
/-! SUPPORT. Byte storage: read after write, the canonical form, and the bound on the indices. -/

namespace Sys2Proof.Machine

@[simp] theorem Memory.byteAt_store_same (m : Memory) (i : Nat) (v : Byte) :
    Memory.byteAt (Memory.store m i v) i = some v := by
  induction m with
  | nil => simp [Memory.store, Memory.byteAt]
  | cons c m ih =>
    obtain ⟨j, b⟩ := c
    unfold Memory.store
    split
    · simp [Memory.byteAt]
    · split
      · simp [Memory.byteAt]
      · next h => simp [Memory.byteAt, Ne.symm h, ih]

theorem Memory.byteAt_store_other (m : Memory) {i j : Nat} (v : Byte) (h : j ≠ i) :
    Memory.byteAt (Memory.store m i v) j = Memory.byteAt m j := by
  induction m with
  | nil => simp [Memory.store, Memory.byteAt, Ne.symm h]
  | cons c m ih =>
    obtain ⟨k, b⟩ := c
    unfold Memory.store
    split
    · simp [Memory.byteAt, Ne.symm h]
    · split
      · next hk => subst hk; simp [Memory.byteAt, Ne.symm h]
      · simp [Memory.byteAt, ih]

/-- The cells after a store are the old ones and the new one. -/
theorem Memory.mem_store {m : Memory} {i : Nat} {v : Byte} {c : Host.Cell} (h : c ∈ Memory.store m i v) :
    c = (i, v) ∨ c ∈ m := by
  induction m with
  | nil => simpa [Memory.store] using h
  | cons d m ih =>
    obtain ⟨k, b⟩ := d
    unfold Memory.store at h
    split at h
    · simpa using h
    · split at h
      · rcases List.mem_cons.mp h with h | h
        · exact .inl h
        · exact .inr (List.mem_cons_of_mem _ h)
      · rcases List.mem_cons.mp h with h | h
        · exact .inr (h ▸ List.mem_cons_self)
        · exact (ih h).imp_right (List.mem_cons_of_mem _)

/-- Storing a byte keeps the canonical form. -/
theorem Memory.store_wf {m : Memory} (h : Memory.wf m) (i : Nat) (v : Byte) : Memory.wf (Memory.store m i v) := by
  induction m with
  | nil => simp [Memory.store, Memory.wf]
  | cons c m ih =>
    obtain ⟨j, b⟩ := c
    obtain ⟨hj, hm⟩ := List.pairwise_cons.mp h
    unfold Memory.store
    split
    · next hi =>
      refine List.pairwise_cons.mpr ⟨fun c hc => ?_, h⟩
      rcases List.mem_cons.mp hc with rfl | hc
      · exact hi
      · exact Nat.lt_trans hi (hj c hc)
    · split
      · next hi => subst hi; exact List.pairwise_cons.mpr ⟨hj, hm⟩
      · next h1 h2 =>
        refine List.pairwise_cons.mpr ⟨fun c hc => ?_, ih hm⟩
        rcases Memory.mem_store hc with rfl | hc
        · show j < i; omega
        · exact hj c hc

theorem Memory.storeBytes_wf {m : Memory} (h : Memory.wf m) (a : Nat) (bs : List Byte) :
    Memory.wf (Memory.storeBytes m a bs) := by
  induction bs generalizing m a with
  | nil => exact h
  | cons b bs ih => exact ih (Memory.store_wf h a b) (a + 1)

/-- The indices after storing a byte string are old ones or lie in the stored range. -/
theorem Memory.mem_storeBytes {m : Memory} {a : Nat} {bs : List Byte} {c : Host.Cell}
    (h : c ∈ Memory.storeBytes m a bs) : c ∈ m ∨ (a ≤ c.1 ∧ c.1 < a + bs.length) := by
  induction bs generalizing m a with
  | nil => exact .inl h
  | cons b bs ih =>
    rcases ih h with h | ⟨h1, h2⟩
    · rcases Memory.mem_store h with rfl | h
      · exact .inr ⟨Nat.le_refl _, by simp⟩
      · exact .inl h
    · exact .inr ⟨by omega, by simp only [List.length_cons]; omega⟩

/-- Reading back a stored byte string: its bytes inside the range, the old ones outside it. -/
theorem Memory.byteAt_storeBytes (m : Memory) (a : Nat) (bs : List Byte) (i : Nat) :
    Memory.byteAt (Memory.storeBytes m a bs) i =
      if a ≤ i ∧ i < a + bs.length then bs[i - a]? else Memory.byteAt m i := by
  induction bs generalizing m a with
  | nil => simp only [Memory.storeBytes, List.length_nil]; rw [if_neg (by omega)]
  | cons b bs ih =>
    rw [Memory.storeBytes, ih]
    by_cases h1 : i = a
    · subst h1
      rw [if_neg (by omega), if_pos (by simp only [List.length_cons]; omega)]
      simp
    · by_cases h2 : a ≤ i ∧ i < a + (b :: bs).length
      · simp only [List.length_cons] at h2
        rw [if_pos (by omega), if_pos (by simp only [List.length_cons]; omega),
          show i - a = (i - (a + 1)) + 1 by omega, List.getElem?_cons_succ]
      · simp only [List.length_cons] at h2
        rw [if_neg (by omega), if_neg (by simp only [List.length_cons]; omega),
          Memory.byteAt_store_other m b h1]

/-- Reset memory, which lists nothing, is in canonical form. -/
theorem Memory.wf_nil : Memory.wf [] := List.Pairwise.nil

end Sys2Proof.Machine
end

