-- ==== Sys2Proof/Laws/Status.lean ====
section
/-! SUPPORT. The fields of the STATUS word (10_state.md R25). -/

namespace Sys2Proof.Machine

/-- Bit i of the STATUS word (R25). -/
theorem statusWord_getLsbD (c : Code) (op : Byte) (i : Nat) :
    (statusWord c op).getLsbD i = ((decide (8 ≤ i) && op.getLsbD (i - 8)) || c.bits.getLsbD i) := by
  unfold statusWord
  simp only [BitVec.getLsbD_or, BitVec.getLsbD_shiftLeft, BitVec.getLsbD_setWidth]
  by_cases h : i < 32
  · by_cases h8 : i < 8
    · simp [h, h8, show ¬ 8 ≤ i by omega]
    · simp [h, h8, show 8 ≤ i by omega, show i - 8 < 32 by omega]
  · have h1 : op.getLsbD (i - 8) = false := BitVec.getLsbD_of_ge _ _ (by omega)
    have h2 : c.bits.getLsbD i = false := BitVec.getLsbD_of_ge _ _ (by omega)
    simp [h, h1, h2]

@[simp] theorem statusCode_statusWord (c : Code) (op : Byte) : statusCode (statusWord c op) = c.bits := by
  apply BitVec.eq_of_getLsbD_eq
  intro i hi
  simp [statusCode, statusWord_getLsbD, hi, show ¬ 8 ≤ i by omega]

@[simp] theorem statusLastop_statusWord (c : Code) (op : Byte) : statusLastop (statusWord c op) = op := by
  apply BitVec.eq_of_getLsbD_eq
  intro i hi
  have : c.bits.getLsbD (8 + i) = false := BitVec.getLsbD_of_ge _ _ (by omega)
  simp [statusLastop, statusWord_getLsbD, hi, this]

@[simp] theorem statusReservedZero_statusWord (c : Code) (op : Byte) :
    statusReservedZero (statusWord c op) = true := by
  simp only [statusReservedZero, Bool.and_eq_true, beq_iff_eq]
  constructor <;> apply BitVec.eq_of_getLsbD_eq <;> intro i hi
  · simp [statusWord_getLsbD]
    omega
  · have h1 : c.bits.getLsbD (16 + i) = false := BitVec.getLsbD_of_ge _ _ (by omega)
    have h2 : op.getLsbD (16 + i - 8) = false := BitVec.getLsbD_of_ge _ _ (by omega)
    simp [statusWord_getLsbD, h1, h2]

theorem Code.bits_le (c : Code) : c.bits.toNat ≤ 4 := by
  rcases c with _ | _ | e
  · decide
  · decide
  · cases e <;> decide

theorem Code.bits_injective {c d : Code} (h : c.bits = d.bits) : c = d := by
  rcases c with _ | _ | e <;> rcases d with _ | _ | f <;> first
    | rfl
    | exact absurd h (by decide)
    | (cases e <;> exact absurd h (by decide))
    | (cases f <;> exact absurd h (by decide))
    | (cases e <;> cases f <;> first | rfl | exact absurd h (by decide))

end Sys2Proof.Machine
end

