-- ==== Sys2Proof/Laws/Command.lean ====
section
/-! SUPPORT. What a command can do, said once: the operand checks, the two ends of a command, and exec as a body run by
`runCommand`. -/

namespace Sys2Proof.Machine

/-! ## The two ends -/

theorem Config.maxLen_pos : 96 ≤ Config.maxLen := by unfold Config.maxLen; omega

theorem Config.maxLen_small : Config.maxLen + 8 < 2 ^ 32 := by
  have := Nat.mod_lt Config.extraBlocks (show 536870899 > 0 by decide)
  unfold Config.maxLen; omega

theorem Config.maxLen_blocks : Config.maxLen % 8 = 0 := by unfold Config.maxLen; omega

/-- What `complete` does, whole, for a result that fits. -/
theorem State.complete_spec (s : State) {r : List Byte} (hr : r.length ≤ Config.maxLen + 8) :
    Completed s (s.complete r) r := by
  have hlen : (BitVec.ofNat 32 r.length).toNat = r.length := by
    have := Config.maxLen_small
    simp only [BitVec.toNat_ofNat]
    exact Nat.mod_eq_of_lt (by omega)
  refine ⟨rfl, hlen, ?_, ?_, ⟨rfl, rfl, fun b i => State.operandByte_congr rfl rfl rfl b i, rfl, rfl, rfl, rfl⟩⟩
  · apply List.ext_getElem
    · simp [State.result, hlen]
    · intro i h1 h2
      simp [State.result, State.resByte, hlen, h2, Memory.byteAt_storeBytes]
  · intro i hi
    simp only [State.complete_resData, Memory.byteAt_storeBytes]
    rw [if_neg (by omega)]

/-- What `raise` does, whole. -/
theorem State.raise_spec (s : State) (e : Err) : Raised s (s.raise e) e :=
  ⟨rfl, rfl, fun _ => rfl, fun i => by simp [State.resByte],
    ⟨rfl, rfl, fun b i => State.operandByte_congr rfl rfl rfl b i, rfl, rfl, rfl, rfl⟩⟩

/-- A command ends in one of three ways, in the order of R215. -/
theorem State.runCommand_cases (s : State) (used : List OperandBuf) (body : Except Err (List Byte)) :
    (used.any s.overCapacity = true ∧ s.runCommand used body = s.raise .unsupported) ∨
    (used.any s.overCapacity = false ∧ ∃ r, body = .ok r ∧ s.runCommand used body = s.complete r) ∨
    (used.any s.overCapacity = false ∧ ∃ e, body = .error e ∧ s.runCommand used body = s.raise e) := by
  unfold State.runCommand
  cases h : used.any s.overCapacity with
  | true => exact .inl ⟨rfl, by simp⟩
  | false =>
    right
    cases body with
    | ok r => exact .inl ⟨rfl, r, rfl, by simp⟩
    | error e => exact .inr ⟨rfl, e, rfl, by simp⟩

/-! ## The operand checks -/

theorem requirePresent_ok {a : Option (List Byte)} {x : List Byte} : requirePresent a = .ok x ↔ a = some x := by
  cases a <;> simp [requirePresent]

theorem requireLen_ok {n : Nat} {a : Option (List Byte)} {x : List Byte} :
    requireLen n a = .ok x ↔ a = some x ∧ x.length = n := by
  cases a with
  | none => simp [requireLen]
  | some y =>
    simp only [requireLen]
    split <;> simp_all
    · intro h; subst h; assumption
    · intro h; subst h; assumption

theorem requireBlocks_ok {a : Option (List Byte)} {x : List Byte} :
    requireBlocks a = .ok x ↔ a = some x ∧ x.length ≠ 0 ∧ x.length % 8 = 0 := by
  cases a with
  | none => simp [requireBlocks]
  | some y =>
    simp only [requireBlocks]
    split
    · next h => simp only [Except.ok.injEq, Option.some.injEq]; constructor
                · rintro rfl; exact ⟨rfl, h⟩
                · exact fun h => h.1
    · next h => simp only [reduceCtorEq, Option.some.injEq, false_iff]; rintro ⟨rfl, h'⟩; exact h h'

/-- The checks fail with INVALID_ARGUMENT only. -/
theorem requirePresent_error {a : Option (List Byte)} {e : Err} :
    requirePresent a = .error e ↔ a = none ∧ e = .invalidArgument := by
  cases a <;> simp [requirePresent, eq_comm]

theorem requireLen_error {n : Nat} {a : Option (List Byte)} {e : Err} :
    requireLen n a = .error e ↔ (a = none ∨ ∃ x, a = some x ∧ x.length ≠ n) ∧ e = .invalidArgument := by
  cases a with
  | none => simp [requireLen, eq_comm]
  | some y =>
    simp only [requireLen]
    split <;> simp_all [eq_comm]

theorem requireBlocks_error {a : Option (List Byte)} {e : Err} :
    requireBlocks a = .error e ↔
      (a = none ∨ ∃ x, a = some x ∧ (x.length = 0 ∨ x.length % 8 ≠ 0)) ∧ e = .invalidArgument := by
  cases a with
  | none => simp [requireBlocks, eq_comm]
  | some y =>
    simp only [requireBlocks, Option.some.injEq, exists_eq_left', reduceCtorEq, false_or]
    by_cases h : y.length ≠ 0 ∧ y.length % 8 = 0
    · rw [if_pos h]
      simp only [reduceCtorEq, false_iff, not_and]
      omega
    · rw [if_neg h]
      simp only [Except.error.injEq]
      exact ⟨fun he => ⟨by omega, he.symm⟩, fun he => he.2.symm⟩

@[simp] theorem withOne_ok (x : List Byte) (f : List Byte → Except Err (List Byte)) : withOne (.ok x) f = f x := rfl
@[simp] theorem withOne_error (e : Err) (f : List Byte → Except Err (List Byte)) :
    withOne (.error e) f = .error e := rfl

theorem withOne_eq_ok {a : Except Err (List Byte)} {f : List Byte → Except Err (List Byte)} {r : List Byte} :
    withOne a f = .ok r ↔ ∃ x, a = .ok x ∧ f x = .ok r := by cases a <;> simp

theorem withOne_eq_error {a : Except Err (List Byte)} {f : List Byte → Except Err (List Byte)} {e : Err} :
    withOne a f = .error e ↔ a = .error e ∨ ∃ x, a = .ok x ∧ f x = .error e := by cases a <;> simp

/-- An operand within the capacity has at most MAXLEN bytes. -/
theorem State.operand_length_le {s : State} {b : OperandBuf} {x : List Byte} (h : s.operand b = some x)
    (hc : s.overCapacity b = false) : x.length ≤ Config.maxLen := by
  obtain ⟨hp, hl⟩ := State.operand_length h
  simp [State.overCapacity, hp] at hc
  omega

/-- An operand of at most MAXLEN bytes is within the capacity. -/
theorem State.overCapacity_of_length {s : State} {b : OperandBuf} {x : List Byte} (h : s.operand b = some x)
    (hx : x.length ≤ Config.maxLen) : s.overCapacity b = false := by
  obtain ⟨hp, hl⟩ := State.operand_length h
  simp [State.overCapacity, hp]
  omega

/-! ## The lengths of results -/

theorem Hidden.ecbLoop_length_le (input : List Byte) (n : Nat) (h : Hidden) (out : List Byte) :
    (Hidden.ecbLoop input n h out).2.length ≤ out.length + 8 * n := by
  induction n generalizing h out with
  | zero => simp [Hidden.ecbLoop]
  | succ n ih =>
    unfold Hidden.ecbLoop
    split
    · refine Nat.le_trans (ih _ _) ?_
      simp only [List.length_append, bytesOf_length]
      omega
    · simp

theorem Hidden.ecb_length_le (dir : Dir) (x : List Byte) (h : Hidden) :
    (h.ecb dir x).2.length ≤ 8 * (x.length / 8) := by
  simpa [Hidden.ecb] using Hidden.ecbLoop_length_le x (x.length / 8) (h.startBlocks dir (x.length / 8)) []

theorem unpad_length_le {q r : List Byte} (h : unpad q = .ok r) : r.length ≤ q.length := by
  unfold unpad at h
  simp only at h
  split at h
  · cases h
  · split at h
    · cases h; simp
    · cases h

/-- UNPAD fails with CRYPTO_INTEGRITY only (R181). -/
theorem unpad_error {q : List Byte} {e : Err} (h : unpad q = .error e) : e = .cryptoIntegrity := by
  unfold unpad at h
  simp only at h
  split at h
  · cases h; rfl
  · split at h <;> cases h
    rfl

/-! ## exec -/

/-- The body each command runs once no used operand is over capacity. -/
def bodyOf (i : Instr) (s : State) : Except Err (List Byte) :=
  match i with
  | .enc => encBody s.hid (s.operand .opa) (s.operand .opb)
  | .dec => decBody s.hid (s.operand .opa) (s.operand .opb)
  | .genkeys => genkeysBody s.hid (s.operand .opb)
  | .iperm => ipermBody (s.operand .opa)
  | .fperm => fpermBody (s.operand .opa)
  | .feistel => feistelBody (s.operand .opa) (s.operand .opb)
  | .sbox => sboxBody (s.operand .opa)

/-- Every command is its body run by `runCommand` on its used operands, and ends in a next state. -/
theorem exec_eq (i : Instr) (s : State) : exec i s = .next (s.runCommand (usedOperands i) (bodyOf i s)) := by
  cases i <;> rfl

/-- The result of every command fits RES_DATA (R182). -/
theorem bodyOf_length_le {i : Instr} {s : State} {r : List Byte} (hb : bodyOf i s = .ok r)
    (hc : (usedOperands i).any s.overCapacity = false) : r.length ≤ Config.maxLen + 8 := by
  have hm := Config.maxLen_pos
  have hm8 := Config.maxLen_blocks
  cases i <;> simp only [bodyOf, encBody, decBody, genkeysBody, ipermBody, fpermBody, feistelBody, sboxBody, withTwo,
    withOne_eq_ok, requirePresent_ok, requireLen_ok, requireBlocks_ok] at hb
  case enc =>
    obtain ⟨p, hp, k, hk, hr⟩ := hb
    simp only [Except.ok.injEq] at hr; subst hr
    have h1 := State.operand_length_le hp (by simp [usedOperands] at hc; exact hc.1)
    have h2 := Hidden.ecb_length_le .encrypt (pad p) ((s.hid.keygen (be 64 k)).setWbuf (pad p))
    have h3 : (pad p).length = 8 * (p.length / 8 + 1) := by simp [pad, padLen]; omega
    show (Hidden.ecb .encrypt (pad p) ((s.hid.keygen (be 64 k)).setWbuf (pad p))).2.length ≤ _
    omega
  case dec =>
    obtain ⟨c, ⟨hc1, hc2⟩, k, hk, hr⟩ := hb
    have h1 := State.operand_length_le hc1 (by simp [usedOperands] at hc; exact hc.1)
    have h2 := unpad_length_le hr
    have h3 := Hidden.ecb_length_le .decrypt c (s.hid.keygen (be 64 k))
    have h4 : (decRun s.hid c k).wbuf.length = (Hidden.ecb .decrypt c (s.hid.keygen (be 64 k))).2.length := rfl
    omega
  case genkeys =>
    obtain ⟨k, hk, hr⟩ := hb
    simp only [Except.ok.injEq] at hr; subst hr
    simp only [rkfBytes, List.length_flatMap, bytesOf_length, List.map_const', List.sum_replicate,
      Vector.length_toList, smul_eq_mul]
    omega
  all_goals
    first
    | (obtain ⟨x, hx, hr⟩ := hb; simp only [Except.ok.injEq] at hr; subst hr; simp only [bytesOf_length]; omega)
    | (obtain ⟨x, hx, y, hy, hr⟩ := hb; simp only [Except.ok.injEq] at hr; subst hr; simp only [bytesOf_length]; omega)

/-- Everything exec can do: a command completes with its body's result, which fits, or raises an error, which is
UNSUPPORTED for an operand over capacity and else its body's. -/
theorem exec_cases {i : Instr} {s t : State} (h : exec i s = .next t) :
    ((usedOperands i).any s.overCapacity = true ∧ t = s.raise .unsupported) ∨
    ((usedOperands i).any s.overCapacity = false ∧
      ∃ r, bodyOf i s = .ok r ∧ r.length ≤ Config.maxLen + 8 ∧ t = s.complete r) ∨
    ((usedOperands i).any s.overCapacity = false ∧ ∃ e, bodyOf i s = .error e ∧ t = s.raise e) := by
  rw [exec_eq] at h
  cases h
  rcases State.runCommand_cases s (usedOperands i) (bodyOf i s) with h | ⟨h1, r, h2, h3⟩ | h
  · exact .inl h
  · exact .inr (.inl ⟨h1, r, h2, bodyOf_length_le h2 h1, h3⟩)
  · exact .inr (.inr h)

/-- exec of a command whose operands are within the capacity and whose body succeeds. -/
theorem exec_complete {i : Instr} {s : State} {r : List Byte} (hc : (usedOperands i).any s.overCapacity = false)
    (hb : bodyOf i s = .ok r) : exec i s = .next (s.complete r) ∧ Completed s (s.complete r) r :=
  ⟨by rw [exec_eq]; unfold State.runCommand; rw [hc, hb]; rfl, State.complete_spec s (bodyOf_length_le hb hc)⟩

/-- exec of a command whose operands are within the capacity and whose body fails. -/
theorem exec_raise {i : Instr} {s : State} {e : Err} (hc : (usedOperands i).any s.overCapacity = false)
    (hb : bodyOf i s = .error e) : exec i s = .next (s.raise e) ∧ Raised s (s.raise e) e :=
  ⟨by rw [exec_eq]; unfold State.runCommand; rw [hc, hb]; rfl, State.raise_spec s e⟩

/-- exec of a command that uses an operand over capacity. -/
theorem exec_overCapacity {i : Instr} {s : State} (hc : (usedOperands i).any s.overCapacity = true) :
    exec i s = .next (s.raise .unsupported) ∧ Raised s (s.raise .unsupported) .unsupported :=
  ⟨by rw [exec_eq]; unfold State.runCommand; rw [hc]; rfl, State.raise_spec s _⟩

end Sys2Proof.Machine
end

