-- ==== Sys2Proof/Laws/Hidden.lean ====
section
/-! SUPPORT. One lemma per hidden register per named update. -/

namespace Sys2Proof.Machine

variable (h : Hidden)

/-! ## loadBlock -/

@[simp] theorem Hidden.loadBlock_rkf (b : Block) : (h.loadBlock b).rkf = h.rkf := rfl
@[simp] theorem Hidden.loadBlock_c (b : Block) : (h.loadBlock b).c = h.c := rfl
@[simp] theorem Hidden.loadBlock_d (b : Block) : (h.loadBlock b).d = h.d := rfl
@[simp] theorem Hidden.loadBlock_l (b : Block) : (h.loadBlock b).l = upperHalf (permIP b) := rfl
@[simp] theorem Hidden.loadBlock_r (b : Block) : (h.loadBlock b).r = lowerHalf (permIP b) := rfl
@[simp] theorem Hidden.loadBlock_pre (b : Block) : (h.loadBlock b).pre = h.pre := rfl
@[simp] theorem Hidden.loadBlock_wbuf (b : Block) : (h.loadBlock b).wbuf = h.wbuf := rfl
@[simp] theorem Hidden.loadBlock_dir (b : Block) : (h.loadBlock b).dir = h.dir := rfl
@[simp] theorem Hidden.loadBlock_rnd (b : Block) : (h.loadBlock b).rnd = 0 := rfl
@[simp] theorem Hidden.loadBlock_blk (b : Block) : (h.loadBlock b).blk = h.blk := rfl
@[simp] theorem Hidden.loadBlock_nblk (b : Block) : (h.loadBlock b).nblk = h.nblk := rfl

/-! ## round -/

@[simp] theorem Hidden.round_rkf : (h.round).rkf = h.rkf := rfl
@[simp] theorem Hidden.round_c : (h.round).c = h.c := rfl
@[simp] theorem Hidden.round_d : (h.round).d = h.d := rfl
@[simp] theorem Hidden.round_l : (h.round).l = h.r := rfl
@[simp] theorem Hidden.round_r : (h.round).r = h.l ^^^ feistelF h.r (subkeyOf h.rkf h.dir h.rnd.val) := rfl
@[simp] theorem Hidden.round_pre : (h.round).pre = h.pre := rfl
@[simp] theorem Hidden.round_wbuf : (h.round).wbuf = h.wbuf := rfl
@[simp] theorem Hidden.round_dir : (h.round).dir = h.dir := rfl
@[simp] theorem Hidden.round_rnd : (h.round).rnd = rndNext h.rnd := rfl
@[simp] theorem Hidden.round_blk : (h.round).blk = h.blk := rfl
@[simp] theorem Hidden.round_nblk : (h.round).nblk = h.nblk := rfl

/-! ## preOutput -/

@[simp] theorem Hidden.preOutput_rkf : (h.preOutput).rkf = h.rkf := rfl
@[simp] theorem Hidden.preOutput_c : (h.preOutput).c = h.c := rfl
@[simp] theorem Hidden.preOutput_d : (h.preOutput).d = h.d := rfl
@[simp] theorem Hidden.preOutput_l : (h.preOutput).l = h.l := rfl
@[simp] theorem Hidden.preOutput_r : (h.preOutput).r = h.r := rfl
@[simp] theorem Hidden.preOutput_pre : (h.preOutput).pre = joinHalves h.r h.l := rfl
@[simp] theorem Hidden.preOutput_wbuf : (h.preOutput).wbuf = h.wbuf := rfl
@[simp] theorem Hidden.preOutput_dir : (h.preOutput).dir = h.dir := rfl
@[simp] theorem Hidden.preOutput_rnd : (h.preOutput).rnd = h.rnd := rfl
@[simp] theorem Hidden.preOutput_blk : (h.preOutput).blk = h.blk := rfl
@[simp] theorem Hidden.preOutput_nblk : (h.preOutput).nblk = h.nblk := rfl

/-! ## startBlocks -/

@[simp] theorem Hidden.startBlocks_rkf (dir : Dir) (n : Nat) : (h.startBlocks dir n).rkf = h.rkf := rfl
@[simp] theorem Hidden.startBlocks_c (dir : Dir) (n : Nat) : (h.startBlocks dir n).c = h.c := rfl
@[simp] theorem Hidden.startBlocks_d (dir : Dir) (n : Nat) : (h.startBlocks dir n).d = h.d := rfl
@[simp] theorem Hidden.startBlocks_l (dir : Dir) (n : Nat) : (h.startBlocks dir n).l = h.l := rfl
@[simp] theorem Hidden.startBlocks_r (dir : Dir) (n : Nat) : (h.startBlocks dir n).r = h.r := rfl
@[simp] theorem Hidden.startBlocks_pre (dir : Dir) (n : Nat) : (h.startBlocks dir n).pre = h.pre := rfl
@[simp] theorem Hidden.startBlocks_wbuf (dir : Dir) (n : Nat) : (h.startBlocks dir n).wbuf = h.wbuf := rfl
@[simp] theorem Hidden.startBlocks_dir (dir : Dir) (n : Nat) : (h.startBlocks dir n).dir = dir := rfl
@[simp] theorem Hidden.startBlocks_rnd (dir : Dir) (n : Nat) : (h.startBlocks dir n).rnd = h.rnd := rfl
@[simp] theorem Hidden.startBlocks_blk (dir : Dir) (n : Nat) : (h.startBlocks dir n).blk = 0 := rfl
@[simp] theorem Hidden.startBlocks_nblk (dir : Dir) (n : Nat) : (h.startBlocks dir n).nblk = n := rfl

/-! ## nextBlock -/

@[simp] theorem Hidden.nextBlock_rkf : (h.nextBlock).rkf = h.rkf := rfl
@[simp] theorem Hidden.nextBlock_c : (h.nextBlock).c = h.c := rfl
@[simp] theorem Hidden.nextBlock_d : (h.nextBlock).d = h.d := rfl
@[simp] theorem Hidden.nextBlock_l : (h.nextBlock).l = h.l := rfl
@[simp] theorem Hidden.nextBlock_r : (h.nextBlock).r = h.r := rfl
@[simp] theorem Hidden.nextBlock_pre : (h.nextBlock).pre = h.pre := rfl
@[simp] theorem Hidden.nextBlock_wbuf : (h.nextBlock).wbuf = h.wbuf := rfl
@[simp] theorem Hidden.nextBlock_dir : (h.nextBlock).dir = h.dir := rfl
@[simp] theorem Hidden.nextBlock_rnd : (h.nextBlock).rnd = h.rnd := rfl
@[simp] theorem Hidden.nextBlock_blk : (h.nextBlock).blk = h.blk + 1 := rfl
@[simp] theorem Hidden.nextBlock_nblk : (h.nextBlock).nblk = h.nblk := rfl

/-! ## setWbuf -/

@[simp] theorem Hidden.setWbuf_rkf (x : List Byte) : (h.setWbuf x).rkf = h.rkf := rfl
@[simp] theorem Hidden.setWbuf_c (x : List Byte) : (h.setWbuf x).c = h.c := rfl
@[simp] theorem Hidden.setWbuf_d (x : List Byte) : (h.setWbuf x).d = h.d := rfl
@[simp] theorem Hidden.setWbuf_l (x : List Byte) : (h.setWbuf x).l = h.l := rfl
@[simp] theorem Hidden.setWbuf_r (x : List Byte) : (h.setWbuf x).r = h.r := rfl
@[simp] theorem Hidden.setWbuf_pre (x : List Byte) : (h.setWbuf x).pre = h.pre := rfl
@[simp] theorem Hidden.setWbuf_wbuf (x : List Byte) : (h.setWbuf x).wbuf = x := rfl
@[simp] theorem Hidden.setWbuf_dir (x : List Byte) : (h.setWbuf x).dir = h.dir := rfl
@[simp] theorem Hidden.setWbuf_rnd (x : List Byte) : (h.setWbuf x).rnd = h.rnd := rfl
@[simp] theorem Hidden.setWbuf_blk (x : List Byte) : (h.setWbuf x).blk = h.blk := rfl
@[simp] theorem Hidden.setWbuf_nblk (x : List Byte) : (h.setWbuf x).nblk = h.nblk := rfl

/-! ## keygenStart -/

@[simp] theorem Hidden.keygenStart_rkf (key : Block) : (h.keygenStart key).rkf = h.rkf := rfl
@[simp] theorem Hidden.keygenStart_c (key : Block) : (h.keygenStart key).c = splitC (permPC1 key) := rfl
@[simp] theorem Hidden.keygenStart_d (key : Block) : (h.keygenStart key).d = splitD (permPC1 key) := rfl
@[simp] theorem Hidden.keygenStart_l (key : Block) : (h.keygenStart key).l = h.l := rfl
@[simp] theorem Hidden.keygenStart_r (key : Block) : (h.keygenStart key).r = h.r := rfl
@[simp] theorem Hidden.keygenStart_pre (key : Block) : (h.keygenStart key).pre = h.pre := rfl
@[simp] theorem Hidden.keygenStart_wbuf (key : Block) : (h.keygenStart key).wbuf = h.wbuf := rfl
@[simp] theorem Hidden.keygenStart_dir (key : Block) : (h.keygenStart key).dir = h.dir := rfl
@[simp] theorem Hidden.keygenStart_rnd (key : Block) : (h.keygenStart key).rnd = h.rnd := rfl
@[simp] theorem Hidden.keygenStart_blk (key : Block) : (h.keygenStart key).blk = h.blk := rfl
@[simp] theorem Hidden.keygenStart_nblk (key : Block) : (h.keygenStart key).nblk = h.nblk := rfl

/-! ## keygenRound -/

@[simp] theorem Hidden.keygenRound_rkf (r : Nat) :
    (h.keygenRound r).rkf = h.rkf.setIfInBounds (r - 1)
      (permPC2 (joinKey (rol28 h.c (shiftOf r)) (rol28 h.d (shiftOf r)))) := rfl
@[simp] theorem Hidden.keygenRound_c (r : Nat) : (h.keygenRound r).c = rol28 h.c (shiftOf r) := rfl
@[simp] theorem Hidden.keygenRound_d (r : Nat) : (h.keygenRound r).d = rol28 h.d (shiftOf r) := rfl
@[simp] theorem Hidden.keygenRound_l (r : Nat) : (h.keygenRound r).l = h.l := rfl
@[simp] theorem Hidden.keygenRound_r (r : Nat) : (h.keygenRound r).r = h.r := rfl
@[simp] theorem Hidden.keygenRound_pre (r : Nat) : (h.keygenRound r).pre = h.pre := rfl
@[simp] theorem Hidden.keygenRound_wbuf (r : Nat) : (h.keygenRound r).wbuf = h.wbuf := rfl
@[simp] theorem Hidden.keygenRound_dir (r : Nat) : (h.keygenRound r).dir = h.dir := rfl
@[simp] theorem Hidden.keygenRound_rnd (r : Nat) : (h.keygenRound r).rnd = h.rnd := rfl
@[simp] theorem Hidden.keygenRound_blk (r : Nat) : (h.keygenRound r).blk = h.blk := rfl
@[simp] theorem Hidden.keygenRound_nblk (r : Nat) : (h.keygenRound r).nblk = h.nblk := rfl

/-- RND + 1 below 16. -/
theorem rndNext_val {k : Fin 17} (hk : k.val < 16) : (rndNext k).val = k.val + 1 := by simp [rndNext, hk]

/-- One turn of the round loop (R175). -/
theorem Hidden.rounds_succ (n : Nat) (hlt : h.rnd.val < 16) : Hidden.rounds (n + 1) h = Hidden.rounds n h.round := by
  rw [Hidden.rounds, if_pos hlt]

/-- The round loop ends at RND = 16 (R175). -/
theorem Hidden.rounds_done (n : Nat) (hd : ¬ h.rnd.val < 16) : Hidden.rounds n h = h := by
  cases n with
  | zero => rw [Hidden.rounds]
  | succ n => rw [Hidden.rounds, if_neg hd]

/-- One turn of the block loop (R184). -/
theorem Hidden.ecbLoop_succ (input : List Byte) (n : Nat) (out : List Byte) (hlt : h.blk < h.nblk) :
    Hidden.ecbLoop input (n + 1) h out =
      Hidden.ecbLoop input n (h.block (blockAt input h.blk)).1.nextBlock
        (out ++ bytesOf 8 (h.block (blockAt input h.blk)).2) := by
  rw [Hidden.ecbLoop, if_pos hlt]

/-- The registers after one block. -/
theorem Hidden.block_fst (b : Block) : (h.block b).1 = (Hidden.rounds 16 (h.loadBlock b)).preOutput := rfl

/-- The output of one block is FP of PRE (R176). -/
theorem Hidden.block_snd (b : Block) :
    (h.block b).2 = permFP (joinHalves (Hidden.rounds 16 (h.loadBlock b)).r (Hidden.rounds 16 (h.loadBlock b)).l) := rfl

end Sys2Proof.Machine
end

