-- ==== Sys2Proof/Laws/PerInstr.lean ====
section
/-! SUPPORT. What holds of every command as syntax, one lemma per constructor. -/

namespace Sys2Proof.Laws.TableWord

/-- The command is well formed, its word has the format CMD32 with OP in 0x01..0x07 (R70, R72), and the opcode table's
word decodes to it. -/
def Statement (i : Instr) : Prop :=
  i.wf = true ∧ rsvdField (encode i) = 0 ∧ (1 ≤ (opField (encode i)).toNat ∧ (opField (encode i)).toNat ≤ 7) ∧
    decodeTableWord 32 (encode i).toNat = some i

theorem enc : Statement .enc := by unfold Statement; decide
theorem dec : Statement .dec := by unfold Statement; decide
theorem genkeys : Statement .genkeys := by unfold Statement; decide
theorem iperm : Statement .iperm := by unfold Statement; decide
theorem fperm : Statement .fperm := by unfold Statement; decide
theorem feistel : Statement .feistel := by unfold Statement; decide
theorem sbox : Statement .sbox := by unfold Statement; decide

end Sys2Proof.Laws.TableWord
end

