-- ==== Sys2Proof/Laws/Step.lean ====
section
/-! SUPPORT. What one step does, by the input it takes. -/

namespace Sys2Proof.Machine

variable {s : State} {rest : List Input}

/-- A step takes the next input and nothing else. -/
theorem step_cons {x : Input} (h : s.inputs = x :: rest) : step s = acceptInput x (s.popInput rest) := by
  unfold step stepInput
  rw [h]

/-- A run whose first step gives a next state goes on from it. -/
theorem core_run_succ {t : State} (h : step s = .next t) (n : Nat) :
    Host.Core.run Sys2Proof.core (n + 1) s = Host.Core.run Sys2Proof.core n t := by
  have h' : Sys2Proof.core.step s = .next t := h
  simp only [Host.Core.run, h']

/-- The write of an illegal word ends UNSUPPORTED. -/
theorem step_wrCmd_illegal {w : Word} {why : IllegalWord} (h : s.inputs = .wrCmd w :: rest)
    (hd : decode w = .illegal why) : 
    step s = .next (((s.popInput rest).setCmd w).raise .unsupported) := by
  rw [step_cons h]
  simp only [acceptInput, commandWrite, hd]

/-- The write of a command's word runs the command. -/
theorem step_wrCmd_command {w : Word} {i : Instr} (h : s.inputs = .wrCmd w :: rest) (hd : decode w = .command i) :
    step s = exec i ((s.popInput rest).setCmd w) := by
  rw [step_cons h]
  simp only [acceptInput, commandWrite, hd]

/-- A byte access inside its buffer is made. -/
theorem ifByte_lt {b : Buf} {i : Nat} {t : State} (h : i < b.capacity) : ifByte b i t = .next t := by
  simp [ifByte, h]

/-- A byte access outside its buffer faults. -/
theorem ifByte_ge {b : Buf} {i : Nat} {t : State} (h : b.capacity ≤ i) : ifByte b i t = .fault (.noSuchByte b i) := by
  simp [ifByte, Nat.not_lt.mpr h]

/-- What a stored operand byte and every other one read as afterwards. -/
theorem State.setByte_operandByte (s : State) (b c : OperandBuf) (i j : Nat) (v : Byte) :
    (s.setByte b i v).operandByte c j = if c = b ∧ j = i then v else s.operandByte c j := by
  by_cases hc : c = b
  · subst hc
    by_cases hj : j = i
    · subst hj; simp [State.setByte, State.operandByte]
    · simp [State.setByte, State.operandByte, hj, Memory.byteAt_store_other _ v hj]
  · simp [State.setByte, State.operandByte, hc, State.withOperandBuffer_other s hc]

end Sys2Proof.Machine
end

