-- ==== Sys2Proof/Tests/Slice0.lean ====
section
/-! SUPPORT. The model's own tests. Every expected value is the spec's: the encoding of 30_encoding.md, the vectors of
95_test_vectors.md (the V-names below). The last part shows, for each statement with hypotheses, a state and operands
that meet them. -/

namespace Sys2Proof.Tests

open Sys2Proof.Machine

/-- The n bytes of a hex literal (00_scope.md R13). -/
def hx (n v : Nat) : List Byte := bytesOf n (BitVec.ofNat (8 * n) v)

/-- A buffer that holds an operand, or an absent one. -/
def buffer : Option (List Byte) → OperandBuffer
  | none => .reset
  | some x => { present := true, len := BitVec.ofNat 32 x.length, data := Memory.storeBytes [] 0 x }

/-- The machine after reset with its operands loaded and inputs to come. -/
def loaded (a b : Option (List Byte)) (xs : List Input) : State :=
  { State.reset with opa := buffer a, opb := buffer b, inputs := xs }

/-- A buffer that is present with the largest LEN, 2^32 - 1, which is above every MAXLEN. -/
def tooLong : OperandBuffer := { present := true, len := 0xFFFFFFFF#32, data := [] }

/-- One step on the write of `w` to CMD ends with this STATUS and this result. -/
def endsWith (w : Word) (a b : Option (List Byte)) (status : Word) (result : List Byte) : Bool :=
  match step (loaded a b [.wrCmd w]) with
  | .next t => t.status == status && t.result == result
  | _ => false

/-- The canonical key of 95_test_vectors.md. -/
def key : List Byte := hx 8 0x133457799BBCDFF1

/-! ## WellFormed: each check refuses an ill-formed term -/

theorem test_wf_wrData_refused (b : OperandBuf) : Input.wf (.wrData b Config.maxLen 0) = false := by
  simp [Input.wf, Buf.capacity]

theorem test_wf_wrResData_refused : Input.wf (.wrResData (Config.maxLen + 8) 0) = false := by
  simp [Input.wf, Buf.capacity]

theorem test_wf_rdb_operand_refused (b : OperandBuf) : Input.wf (.rdb (.operand b) Config.maxLen) = false := by
  simp [Input.wf, Buf.capacity]

theorem test_wf_rdb_res_refused : Input.wf (.rdb .res (Config.maxLen + 8)) = false := by
  simp [Input.wf, Buf.capacity]

theorem test_wf_last_bytes_accepted (b : OperandBuf) :
    Input.wf (.wrData b (Config.maxLen - 1) 0) = true ∧ Input.wf (.rdb .res (Config.maxLen + 7)) = true := by
  have := Config.maxLen_pos
  simp [Input.wf, Buf.capacity]
  omega

theorem test_wf_every_command : ∀ i ∈ [Instr.enc, .dec, .genkeys, .iperm, .fperm, .feistel, .sbox], i.wf = true := by
  decide

/-! ## Decode: RSVD (24 bits, 0) and OP (8 bits) written out (R70, R72, R74) -/

theorem test_decode_enc : decode 0b000000000000000000000000_00000001#32 = .command .enc := by decide
theorem test_decode_dec : decode 0b000000000000000000000000_00000010#32 = .command .dec := by decide
theorem test_decode_genkeys : decode 0b000000000000000000000000_00000011#32 = .command .genkeys := by decide
theorem test_decode_iperm : decode 0b000000000000000000000000_00000100#32 = .command .iperm := by decide
theorem test_decode_fperm : decode 0b000000000000000000000000_00000101#32 = .command .fperm := by decide
theorem test_decode_feistel : decode 0b000000000000000000000000_00000110#32 = .command .feistel := by decide
theorem test_decode_sbox : decode 0b000000000000000000000000_00000111#32 = .command .sbox := by decide
theorem test_decode_illegal_op : decode 0x00000000#32 = .illegal .unknownOp ∧
    decode 0x00000008#32 = .illegal .unknownOp ∧ decode 0x000000FF#32 = .illegal .unknownOp := by decide
theorem test_decode_illegal_rsvd : decode 0x00000101#32 = .illegal .reservedBits ∧
    decode 0x80000002#32 = .illegal .reservedBits ∧ decode 0x00000100#32 = .illegal .reservedBits := by decide
theorem test_decodeTableWord : decodeTableWord 32 7 = some .sbox ∧ decodeTableWord 32 8 = none := by decide

/-! ## One step per command -/

/-- V-B9. -/
theorem test_enc_canonical : endsWith 1 (some (hx 8 0x0123456789ABCDEF)) (some key) 0x101
    (hx 16 0x85E813540F0AB405FDF2E174492922F8) = true := by decide +kernel

/-- V-B14: an absent plaintext. -/
theorem test_enc_absent : endsWith 1 none (some key) 0x102 [] = true := by decide +kernel

/-- V-B12: the ciphertext of the empty plaintext. -/
theorem test_dec_empty : endsWith 2 (some (hx 8 0xFDF2E174492922F8)) (some key) 0x201 [] = true := by decide +kernel

/-- 95_test_vectors.md §2.7: a decrypted block 0102030405060708, whose eight last bytes are not all 08. -/
theorem test_dec_bad_padding : endsWith 2 (some (hx 8 0x118199C3180EEB27)) (some key) 0x203 [] = true := by
  decide +kernel

/-- V-G6: a weak key, whose subkeys show the order of the bytes. -/
theorem test_genkeys_weak : endsWith 3 none (some (hx 8 0xE0E0E0E0F1F1F1F1)) 0x301
    ((List.replicate 16 (hx 6 0xFFFFFF000000)).flatten) = true := by decide +kernel

/-- V-G9: a key of 7 bytes. -/
theorem test_genkeys_short : endsWith 3 none (some (hx 7 0x133457799BBCDF)) 0x302 [] = true := by decide +kernel

/-- V-P1; OPB is absent and ignored. -/
theorem test_iperm : endsWith 4 (some (hx 8 0x0123456789ABCDEF)) none 0x401 (hx 8 0xCC00CCFFF0AAF0AA) = true := by
  decide +kernel

/-- An operand of 7 bytes (95_test_vectors.md §2.1). -/
theorem test_iperm_short : endsWith 4 (some (List.replicate 7 0)) none 0x402 [] = true := by decide +kernel

/-- V-P1. -/
theorem test_fperm : endsWith 5 (some (hx 8 0x0123456789ABCDEF)) none 0x501 (hx 8 0xFF330FAA00330FAA) = true := by
  decide +kernel

/-- An operand of 9 bytes (95_test_vectors.md §2.1). -/
theorem test_fperm_long : endsWith 5 (some (List.replicate 9 0)) none 0x502 [] = true := by decide +kernel

/-- V-F1. -/
theorem test_feistel : endsWith 6 (some (hx 4 0xF0AAF0AA)) (some (hx 6 0x1B02EFFC7072)) 0x601
    (hx 4 0x234AA9BB) = true := by decide +kernel

/-- The 8-byte key in place of the subkey (95_test_vectors.md §2.4). -/
theorem test_feistel_wrong_length : endsWith 6 (some (hx 4 0xF0AAF0AA)) (some key) 0x602 [] = true := by
  decide +kernel

/-- V-S11. -/
theorem test_sbox : endsWith 7 (some (hx 6 0x6117BA866527)) none 0x701 (hx 4 0x5C82B597) = true := by decide +kernel

/-- An absent operand (95_test_vectors.md §2.3). -/
theorem test_sbox_absent : endsWith 7 none none 0x702 [] = true := by decide +kernel

/-- 95_test_vectors.md §2.8: illegal words, with valid operands. -/
theorem test_illegal_words :
    endsWith 0x00000000 (some (hx 8 0x0102030405060708)) (some key) 0x004 [] = true ∧
    endsWith 0x000000FF (some (hx 8 0x0102030405060708)) (some key) 0xFF04 [] = true ∧
    endsWith 0x80000002 (some (hx 8 0x0102030405060708)) (some key) 0x204 [] = true := by decide +kernel

/-! ## Hypotheses met: general facts about the loaded states -/

/-- An operand loaded is the operand read, at every length a LEN register holds. -/
theorem operand_buffer {s : State} {b : OperandBuf} {x : List Byte} (hb : s.operandBuffer b = buffer (some x))
    (hx : x.length < 2 ^ 32) : s.operand b = some x := by
  have hlen : (BitVec.ofNat 32 x.length).toNat = x.length := by
    simp only [BitVec.toNat_ofNat]; exact Nat.mod_eq_of_lt hx
  simp only [State.operand, hb, buffer, if_true, hlen, Option.some.injEq]
  apply List.ext_getElem
  · simp
  · intro i h1 h2
    simp [State.operandByte, hb, buffer, Memory.byteAt_storeBytes, h2]

theorem loaded_opa {x : List Byte} (b : Option (List Byte)) (xs : List Input) (hx : x.length < 2 ^ 32) :
    (loaded (some x) b xs).operand .opa = some x := operand_buffer rfl hx

theorem loaded_opb {x : List Byte} (a : Option (List Byte)) (xs : List Input) (hx : x.length < 2 ^ 32) :
    (loaded a (some x) xs).operand .opb = some x := operand_buffer rfl hx

/-- A buffer whose LEN is 2^32 - 1 is over capacity. -/
theorem overCapacity_tooLong {s : State} {b : OperandBuf} (hb : s.operandBuffer b = tooLong) :
    s.overCapacity b = true := by
  have := Config.maxLen_small
  simp [State.overCapacity, hb, tooLong]
  omega

/-- A buffer of at most 96 bytes is within it. -/
theorem withinCapacity_buffer {s : State} {b : OperandBuf} {o : Option (List Byte)}
    (hb : s.operandBuffer b = buffer o) (ho : ∀ x, o = some x → x.length ≤ 96) : s.overCapacity b = false := by
  have := Config.maxLen_pos
  cases o with
  | none => simp [State.overCapacity, hb, buffer, OperandBuffer.reset]
  | some x =>
    have := ho x rfl
    simp [State.overCapacity, hb, buffer]
    omega

/-- The loaded states meet the invariant, whatever is to come. -/
theorem loaded_inv (x y : Byte) (xs : List Input) : (loaded (some [x]) (some [y]) xs).Inv := by
  have := Config.maxLen_pos
  refine ⟨?_, ?_, List.Pairwise.nil, ?_, ?_, ?_, ?_, ?_, ?_, ?_, ?_⟩
  · intro b; cases b <;> simp [loaded, State.operandBuffer, buffer, Memory.storeBytes, Memory.store]
  · intro b; cases b <;> (simp [loaded, State.operandBuffer, buffer, Memory.storeBytes, Memory.store]; omega)
  all_goals simp [loaded, State.reset, statusReservedZero, statusCode, statusLastop, opField]

/-! ## Hypotheses met, statement by statement -/

/-- IllegalWordFinishesUnsupported: OP 0x00, OP 0x08, OP 0xFF, and RSVD not 0 at its lowest and highest bit. -/
theorem test_hyp_illegalWord : ∀ w ∈ [0x00000000#32, 0x00000008#32, 0x000000FF#32, 0x00000101#32, 0x80000007#32],
    (loaded none none [.wrCmd w]).inputs = .wrCmd w :: [] ∧
    (opField w = 0 ∨ 8 ≤ (opField w).toNat ∨ rsvdField w ≠ 0) := by
  intro w hw
  refine ⟨rfl, ?_⟩
  simp only [List.mem_cons, List.not_mem_nil, or_false] at hw
  rcases hw with rfl | rfl | rfl | rfl | rfl <;> decide

/-- StepRunsTheDecodedCommand, its first and its last clause. -/
theorem test_hyp_stepRuns : ((loaded none none [.wrCmd 7]).inputs = .wrCmd 7 :: [] ∧ decode 7 = .command .sbox) ∧
    (loaded none none []).inputs = [] := by decide

/-- StepKeepsInvariant. -/
theorem test_hyp_invariant : ∃ t, (loaded (some [1]) (some [2]) [.wrCmd 1]).Inv ∧
    step (loaded (some [1]) (some [2]) [.wrCmd 1]) = .next t := ⟨_, loaded_inv 1 2 _, rfl⟩

/-- ResetGivesTheStatedValues, OperandStorageIsPlainMemory (its second clause), StatusIsWrittenByCommandsOnly,
CmdReadsBackTheLastWord and HiddenStateIsNeverObservable: RESET after a command's operands were loaded. -/
theorem test_hyp_reset : ∃ t, (loaded (some [1]) (some [2]) [.reset]).inputs = .reset :: [] ∧
    step (loaded (some [1]) (some [2]) [.reset]) = .next t := ⟨_, rfl, rfl⟩

/-- AbsentOperandsAreInvalid. -/
theorem test_hyp_absent : State.reset.opa.present = false ∧ State.reset.opb.present = false := by decide

/-- StatusIsWrittenByCommandsOnly, CmdReadsBackTheLastWord: a command write, legal and not, and a host write of STATUS. -/
theorem test_hyp_status : ∀ x ∈ [Input.wrCmd 1, .wrCmd 0, .wrStatus 5], ∃ t,
    (loaded none none [x]).inputs = x :: [] ∧ step (loaded none none [x]) = .next t := by
  intro x hx
  simp only [List.mem_cons, List.not_mem_nil, or_false] at hx
  rcases hx with rfl | rfl | rfl <;> exact ⟨_, rfl, rfl⟩

/-- CommandFrame: every command answers a next state, from every state. -/
theorem test_hyp_commandFrame (i : Instr) : ∃ t, exec i (loaded none none []) = .next t := ⟨_, exec_eq i _⟩

/-- ErrorsChangeOnlyStatusAndLength. -/
theorem test_hyp_errors : ∃ t, (loaded none none [.wrCmd 8]).inputs = .wrCmd 8 :: [] ∧
    step (loaded none none [.wrCmd 8]) = .next t ∧ statusCode t.status ≠ Code.bits .ok := ⟨_, rfl, rfl, by decide⟩

/-- ErrorPriority's clauses: an illegal word, an over-capacity operand beside an absent key, an argument error. -/
theorem test_hyp_priority : decode 0x00000108 = .illegal .reservedBits ∧
    ¬ WithinCapacity .enc { State.reset with opa := tooLong } ∧
    WithinCapacity .dec (loaded (some [1]) (some key) []) ∧
    InvalidArguments .dec ((loaded (some [1]) (some key) []).operand .opa)
      ((loaded (some [1]) (some key) []).operand .opb) := by
  refine ⟨by decide, ?_, ?_, ?_⟩
  · intro h
    have := h .opa (by simp [usedOperands])
    rw [overCapacity_tooLong rfl] at this
    cases this
  · intro b _
    cases b
    · exact withinCapacity_buffer (o := some [1]) rfl (by intro x hx; cases hx; simp)
    · exact withinCapacity_buffer (o := some key) rfl (by intro x hx; cases hx; decide)
  · rw [loaded_opa _ _ (by decide)]
    exact .inr (.inr (.inr ⟨[1], rfl, .inr (by decide)⟩))

/-- The decryption of V-U's block 118199C3180EEB27 ends in 08 but not in eight 08s. -/
theorem badPadding : ¬ PaddingValid (ecbOf (be 64 key) .decrypt (hx 8 0x118199C3180EEB27)) := by
  have e : ecbOf (be 64 key) .decrypt (hx 8 0x118199C3180EEB27) = hx 8 0x0102030405060708 := by decide +kernel
  rw [e]
  intro ⟨_, _, h⟩
  exact absurd (h 0 (by decide) (by decide)) (by decide)

/-- The decryption of FDF2E174492922F8 is eight 08s (V-B12). -/
theorem goodPadding : PaddingValid (ecbOf (be 64 key) .decrypt (hx 8 0xFDF2E174492922F8)) := by
  have e : ecbOf (be 64 key) .decrypt (hx 8 0xFDF2E174492922F8) = hx 8 0x0808080808080808 := by decide +kernel
  rw [e]
  refine ⟨by decide, by decide, ?_⟩
  intro i _ hi
  have hl : i < 8 := by simpa [hx] using hi
  revert i
  decide

/-- DecMeetsItsRule, IntegrityErrorExactly, ErrorPriority (its last clause), at the shortest ciphertext: the operand
hypotheses, with valid and with invalid padding. -/
theorem test_hyp_dec : ∀ c ∈ [hx 8 0xFDF2E174492922F8, hx 8 0x118199C3180EEB27],
    (loaded (some c) (some key) []).operand .opa = some c ∧ c.length ≠ 0 ∧ c.length % 8 = 0 ∧
    c.length ≤ Config.maxLen ∧ (loaded (some c) (some key) []).operand .opb = some key ∧ key.length = 8 ∧
    WithinCapacity .dec (loaded (some c) (some key) []) ∧
    ¬ InvalidArguments .dec (some c) (some key) := by
  intro c hc
  have hl : c.length = 8 := by
    simp only [List.mem_cons, List.not_mem_nil, or_false] at hc
    rcases hc with rfl | rfl <;> simp [hx]
  have hk : key.length = 8 := by simp [key, hx]
  have hm := Config.maxLen_pos
  refine ⟨loaded_opa _ _ (by omega), by omega, by omega, by omega, loaded_opb _ _ (by omega), hk, ?_, ?_⟩
  · intro b _
    cases b
    · exact withinCapacity_buffer (o := some c) rfl (by intro x hx; cases hx; omega)
    · exact withinCapacity_buffer (o := some key) rfl (by intro x hx; cases hx; omega)
  · have : c ≠ [] := by rintro rfl; cases hl
    simp [InvalidArguments, hl, hk, this]

/-- InvalidArgumentExactly: argument errors within the capacity, and none. -/
theorem test_hyp_invalidArgument : WithinCapacity .sbox (loaded none none []) ∧
    InvalidArguments .sbox ((loaded none none []).operand .opa) ((loaded none none []).operand .opb) ∧
    WithinCapacity .sbox (loaded (some (hx 6 0)) none []) ∧
    ¬ InvalidArguments .sbox ((loaded (some (hx 6 0)) none []).operand .opa) none := by
  refine ⟨?_, .inl (by decide), ?_, ?_⟩
  · intro b _; cases b <;> exact withinCapacity_buffer (o := none) rfl (by intro x hx; cases hx)
  · intro b hb
    cases b
    · exact withinCapacity_buffer (o := some (hx 6 0)) rfl (by intro x hx; cases hx; decide)
    · cases hb with | tail _ h => cases h
  · rw [loaded_opa _ _ (by decide)]
    simp [InvalidArguments, hx]

/-- UnsupportedExactly: an over-capacity operand of a used and of an ignored buffer are told apart. -/
theorem test_hyp_unsupported : State.overCapacity { State.reset with opb := tooLong } .opb = true ∧
    OperandBuf.opb ∈ usedOperands .genkeys ∧ OperandBuf.opb ∉ usedOperands .iperm ∧
    Config.maxLen < (0xFFFFFFFF#32 : Word).toNat := by
  have := Config.maxLen_small
  exact ⟨overCapacity_tooLong rfl, by decide, by decide, by simp; omega⟩

/-- HostAccessesHaveNoOtherEffect, OperandStorageIsPlainMemory: accesses to the last byte of each buffer, and a repeated
command. -/
theorem test_hyp_hostAccesses : Config.maxLen - 1 < Config.maxLen ∧
    Config.maxLen + 7 < Buf.res.capacity ∧
    (loaded none none [.rd .cmd]).inputs = .rd .cmd :: [] ∧
    (loaded none none [.rdb .res (Config.maxLen + 7)]).inputs = .rdb .res (Config.maxLen + 7) :: [] ∧
    (loaded none none [.wrStatus 9]).inputs = .wrStatus 9 :: [] ∧
    (loaded none none [.wrResLen 9]).inputs = .wrResLen 9 :: [] ∧
    (loaded none none [.wrResData 0 9]).inputs = .wrResData 0 9 :: [] ∧
    (loaded none none [.wrPresent .opa true]).inputs = .wrPresent .opa true :: [] ∧
    (loaded none none [.wrPresent .opb true]).inputs = .wrPresent .opb true :: [] ∧
    (loaded none none [.wrLen .opa 0xFFFFFFFF]).inputs = .wrLen .opa 0xFFFFFFFF :: [] ∧
    (loaded none none [.wrLen .opb 0]).inputs = .wrLen .opb 0 :: [] ∧
    (loaded none none [.wrData .opb (Config.maxLen - 1) 7]).inputs = .wrData .opb (Config.maxLen - 1) 7 :: [] ∧
    ∃ t u, (loaded none none [.wrCmd 7, .wrCmd 7]).inputs = .wrCmd 7 :: .wrCmd 7 :: [] ∧
      step (loaded none none [.wrCmd 7, .wrCmd 7]) = .next t ∧ step t = .next u := by
  have := Config.maxLen_pos
  exact ⟨by omega, by simp [Buf.capacity], rfl, rfl, rfl, rfl, rfl, rfl, rfl, rfl, rfl, rfl, _, _, rfl, rfl, rfl⟩

/-- OperandStorageIsPlainMemory, its last clause: each operand of each command can be over capacity. -/
theorem test_hyp_overCapacity : ∀ b ∈ [OperandBuf.opa, .opb],
    (State.operandBuffer { State.reset with opa := tooLong, opb := tooLong } b).present = true ∧
    Config.maxLen < (State.operandBuffer { State.reset with opa := tooLong, opb := tooLong } b).len.toNat := by
  intro b _
  have := Config.maxLen_small
  cases b <;> (simp [State.operandBuffer, tooLong]; omega)

/-- FaultsOnlyOutsideABuffer: the first index outside, for each byte access. -/
theorem test_hyp_faults :
    step (loaded none none [.rdb .res (Config.maxLen + 8)]) = .fault (.noSuchByte .res (Config.maxLen + 8)) ∧
    step (loaded none none [.wrData .opb Config.maxLen 7]) =
      .fault (.noSuchByte (.operand .opb) Config.maxLen) ∧
    step (loaded none none [.wrResData (Config.maxLen + 8) 7]) =
      .fault (.noSuchByte .res (Config.maxLen + 8)) := by
  refine ⟨?_, ?_, ?_⟩ <;> rw [step_cons (rest := []) rfl] <;> exact ifByte_ge (by simp [Buf.capacity])

/-- LoadMakesTheOperand: the empty byte string and one that fills the buffer. -/
theorem test_hyp_load : ∀ xs ∈ [[], List.replicate Config.maxLen (0xA5 : Byte)],
    (loaded none none (pseudoLoad .opb xs ++ [.wrCmd 3])).inputs = pseudoLoad .opb xs ++ [.wrCmd 3] ∧
    xs.length ≤ Config.maxLen := by
  intro xs hx
  simp only [List.mem_cons, List.not_mem_nil, or_false] at hx
  rcases hx with rfl | rfl
  · exact ⟨rfl, Nat.zero_le _⟩
  · exact ⟨rfl, by simp⟩

/-- OutcomeIsAFunctionOfTheOperands: two states that differ in an ignored operand and in RES. -/
theorem test_hyp_outcome : ∃ s' t', decode 7 = .command .sbox ∧
    (∀ b ∈ usedOperands .sbox, (loaded (some (hx 6 0)) none [.wrCmd 7]).operand b =
      (loaded (some (hx 6 0)) (some key) [.wrCmd 7]).operand b) ∧
    step (loaded (some (hx 6 0)) none [.wrCmd 7]) = .next s' ∧
    step (loaded (some (hx 6 0)) (some key) [.wrCmd 7]) = .next t' := by
  refine ⟨_, _, by decide, ?_, rfl, rfl⟩
  intro b hb
  cases b
  · rw [loaded_opa _ _ (by decide), loaded_opa _ _ (by decide)]
  · cases hb with | tail _ h => cases h

/-- SboxMeetsItsRule, IpermMeetsItsRule, FpermMeetsItsRule, FeistelMeetsItsRule: their operands. -/
theorem test_hyp_fixedLength (n : Nat) (h : n ≤ 96) :
    (loaded (some (List.replicate n 1)) none []).operand .opa = some (List.replicate n 1) ∧
    (loaded (some (List.replicate 4 1)) (some (List.replicate 6 1)) []).operand .opb =
      some (List.replicate 6 1) :=
  ⟨loaded_opa _ _ (by simp; omega), loaded_opb _ _ (by simp)⟩

/-- The same statements and those of ENC, DEC and GENKEYS: the states of their error clauses. -/
theorem test_hyp_errorClauses (i : Instr) : State.reset.overCapacity .opa = false ∧
    State.reset.overCapacity .opb = false ∧
    InvalidArguments i (State.reset.operand .opa) (State.reset.operand .opb) ∧
    State.overCapacity { State.reset with opa := tooLong, opb := tooLong } .opa = true ∧
    State.overCapacity { State.reset with opa := tooLong, opb := tooLong } .opb = true := by
  have ha : State.reset.operand .opa = none := rfl
  have hb : State.reset.operand .opb = none := rfl
  refine ⟨rfl, rfl, ?_, overCapacity_tooLong rfl, overCapacity_tooLong rfl⟩
  rw [ha, hb]
  cases i <;> simp [InvalidArguments]

/-- FpermMeetsItsRule: a block whose IPERM result is FPERM's operand. -/
theorem test_hyp_fperm : ∃ t, exec .iperm (loaded (some (hx 8 0x0123456789ABCDEF)) none []) = .next t ∧
    (loaded (some t.result) none []).operand .opa = some t.result := by
  have h := exec_eq .iperm (loaded (some (hx 8 0x0123456789ABCDEF)) none [])
  exact ⟨_, h, loaded_opa _ _ (by simp [State.result]; exact BitVec.isLt _)⟩

/-- GenkeysMeetsItsRule: its two operands. -/
theorem test_hyp_genkeys : (loaded none (some key) []).operand .opb = some key ∧ key.length = 8 ∧
    (loaded none (some (List.replicate 8 0)) []).operand .opb = some (List.replicate 8 0) :=
  ⟨loaded_opb _ _ (by decide), by decide, loaded_opb _ _ (by decide)⟩

/-- EncMeetsItsRule, EmptyPlaintext, ResultLengths, EncryptDecryptRoundTrip and WeakKeys: plaintexts of no byte, of one
byte less than MAXLEN and of MAXLEN bytes. -/
theorem test_hyp_enc : ∀ n ∈ [0, Config.maxLen - 1, Config.maxLen],
    (loaded (some (List.replicate n 3)) (some key) []).operand .opa = some (List.replicate n 3) ∧
    (List.replicate n (3 : Byte)).length ≤ Config.maxLen ∧
    (loaded (some (List.replicate n 3)) (some key) []).operand .opb = some key ∧ key.length = 8 := by
  intro n hn
  have h1 := Config.maxLen_pos
  have h2 := Config.maxLen_small
  simp only [List.mem_cons, List.not_mem_nil, or_false] at hn
  refine ⟨loaded_opa _ _ ?_, ?_, loaded_opb _ _ (by decide), by decide⟩ <;>
    simp only [List.length_replicate] <;> omega

/-- ResultLengths, EqualBlocksEncryptEqually, EncryptDecryptRoundTrip: ENC and DEC end OK, and the plaintext has two
equal blocks. -/
theorem test_hyp_equalBlocks : ∃ t, exec .enc (loaded (some (List.replicate 16 0)) (some key) []) = .next t ∧
    statusCode t.status = Code.bits .ok ∧ 8 * 1 + 8 ≤ (List.replicate 16 (0 : Byte)).length ∧
    blockAt (List.replicate 16 0) 0 = blockAt (List.replicate 16 0) 1 :=
  ⟨_, rfl, by decide +kernel, by decide, by decide⟩

theorem test_hyp_decOk : ∃ t, exec .dec (loaded (some (hx 8 0xFDF2E174492922F8)) (some key) []) = .next t ∧
    statusCode t.status = Code.bits .ok := ⟨_, rfl, by decide +kernel⟩

/-- EmptyPlaintext, its second clause. -/
theorem test_hyp_absentPlaintext : (loaded none (some key) []).operand .opa = none ∧
    (loaded none (some key) []).operand .opb = some key := ⟨rfl, loaded_opb _ _ (by decide)⟩

/-- EncryptDecryptRoundTrip: a ciphertext, whatever it is, is an operand some state holds. -/
theorem test_hyp_roundTrip (r : List Byte) (h : r.length < 2 ^ 32) : (loaded (some r) (some key) []).operand .opa = some r ∧
    (loaded (some r) (some key) []).operand .opb = some key := ⟨loaded_opa _ _ h, loaded_opb _ _ (by decide)⟩

/-- IntegrityErrorExactly, its second clause: DEC of the modified block ends CRYPTO_INTEGRITY. -/
theorem test_hyp_integrity : ∃ t, exec .dec (loaded (some (hx 8 0x118199C3180EEB27)) (some key) []) = .next t ∧
    statusCode t.status = Code.bits (.error .cryptoIntegrity) := ⟨_, rfl, by decide +kernel⟩

/-- IntegrityErrorExactly, its third clause: the rule's operands. -/
theorem test_hyp_integrityExamples : ∀ c ∈ [bytesOf 16 0x85E813540F0AB405FDF2E17449292200#128,
      bytesOf 16 0x85E813540F0AB405FDF2E17449292209#128, bytesOf 4 0x0000004F#32, bytesOf 8 0x8839769FE1D1E200#64],
    (loaded (some c) (some (bytesOf 8 0x133457799BBCDFF1#64)) []).operand .opa = some c ∧
    (loaded (some c) (some (bytesOf 8 0x133457799BBCDFF1#64)) []).operand .opb =
      some (bytesOf 8 0x133457799BBCDFF1#64) := by
  intro c hc
  refine ⟨loaded_opa _ _ ?_, loaded_opb _ _ (by decide)⟩
  simp only [List.mem_cons, List.not_mem_nil, or_false] at hc
  rcases hc with rfl | rfl | rfl | rfl <;> simp

/-- ScheduleLaws (c): the keys of V-G1 and V-G8. -/
theorem test_hyp_parity : ∀ i ≤ 64, 1 ≤ i → i % 8 ≠ 0 →
    desBit 0x133457799BBCDFF1#64 i = desBit 0x123556789ABDDEF0#64 i := by decide +kernel

/-- SubstitutionLanes: two inputs that agree in group 0 only. -/
theorem test_hyp_lanes : sboxGroup 0x000000000000#48 0 = sboxGroup 0x03FFFFFFFFFF#48 0 ∧
    sboxGroup 0x000000000000#48 7 ≠ sboxGroup 0x03FFFFFFFFFF#48 7 := by decide

/-- SixteenRoundsPerBlock, BlockInvertsItself: hidden registers with either DIR and one key schedule. -/
theorem test_hyp_block : Hidden.zero.dir = .encrypt ∧ ({ Hidden.zero with dir := .decrypt } : Hidden).dir = .decrypt ∧
    ({ Hidden.zero with dir := .decrypt } : Hidden).rkf = Hidden.zero.rkf := ⟨rfl, rfl, rfl⟩

/-- WeakKeys, its first clause: the schedule of a weak key, in which every subkey is FFFFFF000000 (V-G6). -/
theorem test_hyp_weak : ∀ i < 16, (Hidden.zero.keygen 0xE0E0E0E0F1F1F1F1#64).rkf.getD i 0 = 0xFFFFFF000000#48 := by
  decide +kernel

/-- WeakKeys, its second clause: a weak key in OPB. -/
theorem test_hyp_weakKey : (loaded (some []) (some (bytesOf 8 0x0101010101010101#64)) []).operand .opb =
    some (bytesOf 8 0x0101010101010101#64) := loaded_opb _ _ (by decide)

/-- EcbBlocksAreIndependent, UnpadStripsPadding: byte strings of whole blocks, with valid and with invalid padding. -/
theorem test_hyp_ecb : (List.replicate 16 (8 : Byte)).length % 8 = 0 ∧ (List.replicate 16 (8 : Byte)).length ≠ 0 ∧
    1 < (List.replicate 16 (8 : Byte)).length / 8 ∧ unpad (List.replicate 16 8) = .ok (List.replicate 8 8) ∧
    ¬ PaddingValid (List.replicate 8 9) := by
  refine ⟨by decide, by decide, by decide, by decide, fun h => absurd h.2.1 (by decide)⟩

end Sys2Proof.Tests
end

section
/-! PROOFS of the family 00_scope.md: byte strings as values (R12). Everything rests on one fact, `be_getMsbD`: bit i of
`be(b)`, counted from the top, is bit 7 - i mod 8 of byte i / 8. -/

namespace Sys2Proof.Machine

/-- The value of a byte string fits in 8 bits for each byte. -/
theorem beNat_lt (bs : List Byte) : beNat bs < 2 ^ (8 * bs.length) := by
  induction bs with
  | nil => simp [beNat]
  | cons b bs ih =>
    rw [beNat, List.length_cons, Nat.mul_succ, Nat.add_comm _ 8, Nat.pow_add, Nat.mul_comm b.toNat]
    exact Nat.mul_add_lt_mul_of_lt_of_lt b.isLt ih

/-- At its own width, `be` loses nothing of the value. -/
theorem be_toNat (bs : List Byte) : (be (8 * bs.length) bs).toNat = beNat bs := by
  rw [be, BitVec.toNat_ofNat, Nat.mod_eq_of_lt (beNat_lt bs)]

/-- The bits of `b ‖ bs` counted from the bottom: the rest's, then the first byte's. -/
theorem be_cons_getLsbD (b : Byte) (bs : List Byte) (j : Nat) :
    (be (8 * (b :: bs).length) (b :: bs)).getLsbD j =
      if j < 8 * bs.length then (be (8 * bs.length) bs).getLsbD j else b.getLsbD (j - 8 * bs.length) := by
  rw [BitVec.getLsbD, BitVec.getLsbD, BitVec.getLsbD, be_toNat, be_toNat, beNat, Nat.mul_comm,
    Nat.testBit_two_pow_mul_add _ (beNat_lt bs)]

/-- The bits of `b ‖ bs` counted from the top: the first byte's, then the rest's. -/
theorem be_cons_getMsbD (b : Byte) (bs : List Byte) (i : Nat) :
    (be (8 * (b :: bs).length) (b :: bs)).getMsbD i =
      if i < 8 then b.getMsbD i else (be (8 * bs.length) bs).getMsbD (i - 8) := by
  have hlen : 8 * (b :: bs).length = 8 * bs.length + 8 := by rw [List.length_cons, Nat.mul_succ]
  rw [BitVec.getMsbD, be_cons_getLsbD, hlen, BitVec.getMsbD, BitVec.getMsbD]
  by_cases hi : i < 8
  · rw [if_neg (by omega), if_pos hi, show 8 * bs.length + 8 - 1 - i - 8 * bs.length = 8 - 1 - i by omega]
    simp [hi, show i < 8 * bs.length + 8 by omega]
  · by_cases hin : i - 8 < 8 * bs.length
    · rw [if_pos (by omega), if_neg hi, show 8 * bs.length + 8 - 1 - i = 8 * bs.length - 1 - (i - 8) by omega]
      simp [hin, show i < 8 * bs.length + 8 by omega]
    · simp [hi, hin, show ¬ i < 8 * bs.length + 8 by omega]

/-- Bit i of `be(b)` counted from the top is in byte i / 8, at 7 - i mod 8 (R12); past the string both are 0. -/
theorem be_getMsbD (bs : List Byte) (i : Nat) :
    (be (8 * bs.length) bs).getMsbD i = (bs.getD (i / 8) 0).getLsbD (7 - i % 8) := by
  induction bs generalizing i with
  | nil => simp [BitVec.getMsbD]
  | cons b bs ih =>
    rw [be_cons_getMsbD]
    split
    · next hi => simp [BitVec.getMsbD, hi, Nat.div_eq_of_lt hi, Nat.mod_eq_of_lt hi]
    · next hi =>
      rw [ih, show i / 8 = (i - 8) / 8 + 1 by omega, show i % 8 = (i - 8) % 8 by omega, List.getD_cons_succ]

/-- Byte i of `bytes_m(v)` holds bits 8i .. 8i+7 of v counted from the top, its bit 7 first (R12). -/
theorem bytesOf_getElem_getLsbD {m : Nat} (v : BitVec (8 * m)) {i k : Nat} (hi : i < (bytesOf m v).length)
    (hk : k < 8) : (bytesOf m v)[i].getLsbD k = v.getMsbD (8 * i + (7 - k)) := by
  have him : i < m := by simpa using hi
  rw [bytesOf_getElem, BitVec.getLsbD_extractLsb', BitVec.getMsbD,
    show 8 * m - 1 - (8 * i + (7 - k)) = 8 * (m - 1 - i) + k by omega]
  simp [hk, show 8 * i + (7 - k) < 8 * m by omega]

/-- `be` inverts `bytes_m`. -/
theorem be_bytesOf (m : Nat) (v : BitVec (8 * m)) : be (8 * m) (bytesOf m v) = v := by
  refine BitVec.eq_of_getMsbD_eq fun i hi => ?_
  have hbyte : i / 8 < (bytesOf m v).length := by rw [bytesOf_length]; omega
  calc (be (8 * m) (bytesOf m v)).getMsbD i
    _ = ((bytesOf m v).getD (i / 8) 0).getLsbD (7 - i % 8) := by
      rw [← be_getMsbD, bytesOf_length]
    _ = v.getMsbD (8 * (i / 8) + (7 - (7 - i % 8))) := by
      rw [← List.getElem_eq_getD (h := hbyte), bytesOf_getElem_getLsbD v hbyte (by omega)]
    _ = v.getMsbD i := by rw [show 8 * (i / 8) + (7 - (7 - i % 8)) = i by omega]

/-- `bytes_m` inverts `be` on the byte strings of length m. -/
theorem bytesOf_be (bs : List Byte) : bytesOf bs.length (be (8 * bs.length) bs) = bs := by
  refine List.ext_getElem (bytesOf_length _ _) fun i hi hi' => BitVec.eq_of_getLsbD_eq fun k hk => ?_
  rw [bytesOf_getElem_getLsbD _ hi hk, be_getMsbD, show (8 * i + (7 - k)) / 8 = i by omega,
    show 7 - (8 * i + (7 - k)) % 8 = k by omega, ← List.getElem_eq_getD (h := hi')]

/-- Settles O31: the leading byte by the recursion of `beNat`, the inverses and DES bit i by `be_getMsbD`. -/
theorem byteStringsAndValues : Obligations.ByteStringsAndValues := by
  refine ⟨fun b bs => ?_, fun m v => ⟨bytesOf_length m v, be_bytesOf m v⟩, bytesOf_be,
    fun bs i _ _ => be_getMsbD bs (i - 1)⟩
  rw [be_toNat bs]
  exact be_toNat (b :: bs)

end Sys2Proof.Machine
end

section
/-! PROOFS of the family 10_state.md, part 1: the commands' hidden registers compute the pure functions of Safety.lean,
whatever the registers held before (R35). KEYGEN writes every subkey, a block starts from IP of its input with RND = 0,
and the block loop starts at BLK = 0. -/

namespace Sys2Proof.Machine

/-! ## KEYGEN (R126) -/

/-- KEYGEN up to round n. -/
def Hidden.keygenRounds (key : Block) (n : Nat) (h : Hidden) : Hidden :=
  (List.range' 1 n).foldl Hidden.keygenRound (h.keygenStart key)

theorem Hidden.keygenRounds_succ (key : Block) (n : Nat) (h : Hidden) :
    h.keygenRounds key (n + 1) = (h.keygenRounds key n).keygenRound (n + 1) := by
  rw [Hidden.keygenRounds, List.range'_concat, List.foldl_append, Nat.one_mul, Nat.add_comm 1 n]
  rfl

/-- After n rounds of the schedule the halves are C_n and D_n (R124). -/
theorem Hidden.keygenRounds_halves (key : Block) (n : Nat) (h : Hidden) :
    (h.keygenRounds key n).c = scheduleC key n ∧ (h.keygenRounds key n).d = scheduleD key n := by
  induction n with
  | zero => exact ⟨rfl, rfl⟩
  | succ n ih =>
    rw [Hidden.keygenRounds_succ, Hidden.keygenRound_c, Hidden.keygenRound_d, ih.1, ih.2]
    exact ⟨rfl, rfl⟩

/-- After n rounds of the schedule the first n entries of RKF are the subkeys of rounds 1 to n. -/
theorem Hidden.keygenRounds_rkf (key : Block) (n : Nat) (h : Hidden) (j : Nat) (hj : j < n) (hj16 : j < 16) :
    (h.keygenRounds key n).rkf[j] = roundKey key (j + 1) := by
  induction n with
  | zero => omega
  | succ n ih =>
    obtain ⟨hc, hd⟩ := h.keygenRounds_halves key n
    simp only [Hidden.keygenRounds_succ, Hidden.keygenRound_rkf, hc, hd, Nat.add_sub_cancel]
    by_cases hjn : n = j
    · subst hjn
      rw [Vector.getElem_setIfInBounds_self]
      rfl
    · rw [Vector.getElem_setIfInBounds_ne _ hjn]
      exact ih (by omega)

/-- KEYGEN leaves the sixteen subkeys in RKF, from any hidden state (R126). -/
theorem Hidden.keygen_rkf (key : Block) (h : Hidden) : (h.keygen key).rkf = roundKeys key := by
  ext j hj : 1
  exact (h.keygenRounds_rkf key 16 j hj hj).trans (by rw [roundKeys, Vector.getElem_ofFn])

/-! ## One block (R174) -/

/-- What one round keeps, the round loop keeps. -/
theorem Hidden.rounds_keeps {α : Type} (f : Hidden → α) (hf : ∀ h : Hidden, f h.round = f h) (n : Nat) (h : Hidden) :
    f (Hidden.rounds n h) = f h := by
  induction n generalizing h with
  | zero => rfl
  | succ n ih =>
    by_cases hlt : h.rnd.val < 16
    · rw [Hidden.rounds_succ h n hlt, ih, hf]
    · rw [Hidden.rounds_done h _ hlt]

/-- n turns of the round loop from RND on are the rounds RND..RND+n-1 on the pair L, R (R173). -/
theorem Hidden.rounds_halves (n : Nat) (h : Hidden) (hn : h.rnd.val + n ≤ 16) :
    ((Hidden.rounds n h).l, (Hidden.rounds n h).r) =
      (List.range' h.rnd.val n).foldl (fun p k => roundOn (subkeyOf h.rkf h.dir k) p) (h.l, h.r) := by
  induction n generalizing h with
  | zero => rfl
  | succ n ih =>
    have hlt : h.rnd.val < 16 := by omega
    have hnext : h.round.rnd.val = h.rnd.val + 1 := rndNext_val hlt
    rw [Hidden.rounds_succ h n hlt, ih h.round (by omega), hnext, List.range'_succ, List.foldl_cons]
    rfl

/-- One block on the hidden registers outputs BLOCK of RKF and DIR as they stand (R174). -/
theorem Hidden.block_output (b : Block) (h : Hidden) : (h.block b).2 = blockOf h.rkf h.dir b := by
  have hrounds := Hidden.rounds_halves 16 (h.loadBlock b) (Nat.le_refl _)
  rw [Hidden.block_snd]
  generalize Hidden.rounds 16 (h.loadBlock b) = g at hrounds ⊢
  obtain ⟨hl, hr⟩ := Prod.mk.inj hrounds
  rw [blockOf, List.range_eq_range', hl, hr]
  rfl

/-- What a round, the load of a block and the pre-output swap keep, a block keeps. -/
theorem Hidden.block_keeps {α : Type} (f : Hidden → α) (hround : ∀ h : Hidden, f h.round = f h)
    (hload : ∀ (h : Hidden) (b : Block), f (h.loadBlock b) = f h) (hpre : ∀ h : Hidden, f h.preOutput = f h)
    (h : Hidden) (b : Block) : f (h.block b).1 = f h := by
  rw [Hidden.block_fst, hpre, Hidden.rounds_keeps f hround, hload]

@[simp] theorem Hidden.block_rkf (h : Hidden) (b : Block) : (h.block b).1.rkf = h.rkf :=
  Hidden.block_keeps Hidden.rkf Hidden.round_rkf Hidden.loadBlock_rkf Hidden.preOutput_rkf h b
@[simp] theorem Hidden.block_dir (h : Hidden) (b : Block) : (h.block b).1.dir = h.dir :=
  Hidden.block_keeps Hidden.dir Hidden.round_dir Hidden.loadBlock_dir Hidden.preOutput_dir h b
@[simp] theorem Hidden.block_blk (h : Hidden) (b : Block) : (h.block b).1.blk = h.blk :=
  Hidden.block_keeps Hidden.blk Hidden.round_blk Hidden.loadBlock_blk Hidden.preOutput_blk h b
@[simp] theorem Hidden.block_nblk (h : Hidden) (b : Block) : (h.block b).1.nblk = h.nblk :=
  Hidden.block_keeps Hidden.nblk Hidden.round_nblk Hidden.loadBlock_nblk Hidden.preOutput_nblk h b

/-! ## The block loop (R179) -/

/-- n turns of the block loop from BLK on append the output blocks BLK..BLK+n-1. The facts about
one block are used by `rw`: under a `rfl` step the kernel would run its sixteen rounds. -/
theorem Hidden.ecbLoop_output (input : List Byte) (n : Nat) (h : Hidden) (out : List Byte)
    (hn : h.blk + n ≤ h.nblk) :
    (Hidden.ecbLoop input n h out).2 =
      out ++ (List.range' h.blk n).flatMap fun j => bytesOf 8 (blockOf h.rkf h.dir (blockAt input j)) := by
  induction n generalizing h out with
  | zero => simp [Hidden.ecbLoop]
  | succ n ih =>
    rw [Hidden.ecbLoop_succ h input n out (by omega)]
    refine (ih _ _ ?_).trans ?_
    · rw [Hidden.nextBlock_blk, Hidden.nextBlock_nblk, Hidden.block_blk, Hidden.block_nblk]; omega
    · rw [Hidden.nextBlock_blk, Hidden.nextBlock_rkf, Hidden.nextBlock_dir, Hidden.block_blk, Hidden.block_rkf,
        Hidden.block_dir, Hidden.block_output, List.range'_succ, List.flatMap_cons, List.append_assoc]

/-- ECB on the hidden registers is BLOCK of every block, with RKF as it stands (R179). -/
theorem Hidden.ecb_output (dir : Dir) (x : List Byte) (h : Hidden) :
    (h.ecb dir x).2 =
      (List.range (x.length / 8)).flatMap fun j => bytesOf 8 (blockOf h.rkf dir (blockAt x j)) := by
  rw [Hidden.ecb, Hidden.ecbLoop_output x _ _ _ (by simp), List.range_eq_range']
  rfl

/-! ## The command bodies -/

/-- ENC's blocks are ECB of the padded plaintext under the key (R190). -/
theorem encRun_output (h : Hidden) (p k : List Byte) : (encRun h p k).2 = ecbOf (be 64 k) .encrypt (pad p) := by
  simp only [encRun, Hidden.ecb_output, Hidden.setWbuf_rkf, Hidden.setWbuf_wbuf, Hidden.keygen_rkf]
  rfl

/-- DEC leaves ECB of the ciphertext under the key in WBUF (R191). -/
theorem decRun_wbuf (h : Hidden) (c k : List Byte) : (decRun h c k).wbuf = ecbOf (be 64 k) .decrypt c := by
  simp only [decRun, Hidden.setWbuf_wbuf, Hidden.ecb_output, Hidden.keygen_rkf]
  rfl

/-- No command's body depends on the hidden registers it starts with, or on STATUS (R27, R35). -/
theorem bodyOf_setHidden_setStatus (i : Instr) (s : State) (h : Hidden) (v : Word) :
    bodyOf i { s with hid := h, status := v } = bodyOf i s := by
  cases i with
  | enc => simp only [bodyOf, encBody, encRun_output]; rfl
  | dec => simp only [bodyOf, decBody, decRun_wbuf]; rfl
  | genkeys => simp only [bodyOf, genkeysBody, Hidden.keygen_rkf]; rfl
  | iperm => rfl
  | fperm => rfl
  | feistel => rfl
  | sbox => rfl

/-- Both ends of a command write STATUS and the hidden registers, and nothing before them reads either. -/
theorem exec_setHidden_setStatus (i : Instr) (s : State) (h : Hidden) (v : Word) :
    exec i { s with hid := h, status := v } = exec i s := by
  rw [exec_eq, exec_eq, bodyOf_setHidden_setStatus]
  rfl

end Sys2Proof.Machine
end

section
/-! PROOFS of the family 10_state.md, part 2: what one step can do. A CMD write completes or raises; a host access other
than that changes neither RES, CMD nor STATUS; a byte access is made or faults. -/

namespace Sys2Proof.Machine

/-! ## Command words -/

/-- A command ends in one of two ways: it completes with a result that fits RES_DATA, or it raises an error. -/
theorem exec_ends (i : Instr) (s : State) :
    (∃ r, r.length ≤ Config.maxLen + 8 ∧ exec i s = .next (s.complete r)) ∨ ∃ e, exec i s = .next (s.raise e) := by
  rcases exec_cases (exec_eq i s) with ⟨-, h⟩ | ⟨-, r, -, hr, h⟩ | ⟨-, e, -, h⟩
  · exact .inr ⟨_, by rw [exec_eq, h]⟩
  · exact .inl ⟨r, hr, by rw [exec_eq, h]⟩
  · exact .inr ⟨e, by rw [exec_eq, h]⟩

/-- So does every word written to CMD, legal or not (R210). -/
theorem commandWrite_ends (w : Word) (s : State) :
    (∃ r, r.length ≤ Config.maxLen + 8 ∧ commandWrite w s = .next ((s.setCmd w).complete r)) ∨
      ∃ e, commandWrite w s = .next ((s.setCmd w).raise e) := by
  unfold commandWrite
  cases decode w with
  | command i => exact exec_ends i (s.setCmd w)
  | illegal _ => exact .inr ⟨_, rfl⟩

/-- A word written to CMD reads back, and STATUS is an outcome with the word's OP as LASTOP (R25, R26). -/
theorem commandWrite_cmd_status {w : Word} {s t : State} (h : commandWrite w s = .next t) :
    t.cmd = w ∧ ∃ c, c ≠ Code.none ∧ t.status = statusWord c (opField w) := by
  rcases commandWrite_ends w s with ⟨r, -, hw⟩ | ⟨e, hw⟩ <;> cases hw.symm.trans h
  · exact ⟨rfl, .ok, by simp, rfl⟩
  · exact ⟨rfl, .error e, by simp, rfl⟩

/-- Only NONE has the CODE bits 0 (R25). -/
theorem Code.bits_pos {c : Code} (h : c ≠ .none) : 1 ≤ c.bits.toNat := by
  refine Nat.pos_of_ne_zero fun h0 => h (Code.bits_injective (BitVec.eq_of_toNat_eq ?_))
  simpa [Code.bits] using h0

/-! ## Inputs -/

theorem ifByte_next {b : Buf} {i : Nat} {t u : State} (h : ifByte b i t = .next u) : i < b.capacity ∧ u = t := by
  by_cases hi : i < b.capacity
  · rw [ifByte_lt hi] at h; cases h; exact ⟨hi, rfl⟩
  · rw [ifByte_ge (Nat.le_of_not_lt hi)] at h; cases h

theorem ifByte_fault_iff (b : Buf) (i : Nat) (t : State) :
    (∃ f, ifByte b i t = .fault f) ↔ decide (i < b.capacity) = false := by
  by_cases hi : i < b.capacity
  · simp [ifByte_lt hi, hi]
  · simp [ifByte_ge (Nat.le_of_not_lt hi), hi]

theorem ifByte_not_refused (b : Buf) (i : Nat) (t : State) (r : Refusal) : ifByte b i t ≠ .refused r := by
  unfold ifByte
  split <;> simp

theorem commandWrite_answers (w : Word) (s : State) : ∃ t, commandWrite w s = .next t := by
  rcases commandWrite_ends w s with ⟨r, -, h⟩ | ⟨e, h⟩ <;> exact ⟨_, h⟩

/-- An input faults exactly when it names a byte its buffer does not have (log 10). -/
theorem acceptInput_fault_iff (x : Input) (s : State) : (∃ f, acceptInput x s = .fault f) ↔ x.wf = false := by
  cases x with
  | wrCmd w => obtain ⟨t, ht⟩ := commandWrite_answers w s; simp [acceptInput, Input.wf, ht]
  | wrData b i v => exact ifByte_fault_iff _ _ _
  | wrResData i v => exact ifByte_fault_iff _ _ _
  | rdb b i => exact ifByte_fault_iff _ _ _
  | _ => simp [acceptInput, Input.wf]

theorem acceptInput_not_refused (x : Input) (s : State) (r : Refusal) : acceptInput x s ≠ .refused r := by
  cases x with
  | wrCmd w => obtain ⟨t, ht⟩ := commandWrite_answers w s; simp [acceptInput, ht]
  | wrData b i v => exact ifByte_not_refused _ _ _ _
  | wrResData i v => exact ifByte_not_refused _ _ _ _
  | rdb b i => exact ifByte_not_refused _ _ _ _
  | _ => simp [acceptInput]

/-- No input but a CMD write and RESET changes RES, CMD or STATUS (R23, R25, R26). -/
theorem acceptInput_frame {x : Input} {s t : State} (hw : ∀ w, x ≠ .wrCmd w) (hr : x ≠ .reset)
    (h : acceptInput x s = .next t) : t.res = s.res ∧ t.cmd = s.cmd ∧ t.status = s.status := by
  cases x with
  | wrCmd w => exact absurd rfl (hw w)
  | reset => exact absurd rfl hr
  | wrPresent b v => cases h; simp [State.setPresent]
  | wrLen b v => cases h; simp [State.setLen]
  | wrData b i v => obtain ⟨-, rfl⟩ := ifByte_next h; simp [State.setByte]
  | wrStatus v => cases h; exact ⟨rfl, rfl, rfl⟩
  | wrResLen v => cases h; exact ⟨rfl, rfl, rfl⟩
  | wrResData i v => obtain ⟨-, rfl⟩ := ifByte_next h; exact ⟨rfl, rfl, rfl⟩
  | rd r => cases h; exact ⟨rfl, rfl, rfl⟩
  | rdb b i => obtain ⟨-, rfl⟩ := ifByte_next h; exact ⟨rfl, rfl, rfl⟩

/-- A step does nothing for want of an input, or takes the next one. -/
theorem step_cases (s : State) :
    (s.inputs = [] ∧ step s = .next s) ∨
      ∃ x rest, s.inputs = x :: rest ∧ step s = acceptInput x (s.popInput rest) := by
  cases h : s.inputs with
  | nil => exact .inl ⟨rfl, by rw [step, stepInput, h]⟩
  | cons x rest => exact .inr ⟨x, rest, rfl, step_cons h⟩

end Sys2Proof.Machine
end

section
/-! PROOFS of the family 10_state.md, part 3: what keeps the invariant, one lemma per update of the state. -/

namespace Sys2Proof.Machine

/-- The invariant speaks of the buffers, CMD and STATUS only. -/
theorem State.Inv.congr {s t : State} (hs : s.Inv) (ha : t.opa = s.opa) (hb : t.opb = s.opb) (hres : t.res = s.res)
    (hcmd : t.cmd = s.cmd) (hstatus : t.status = s.status) : t.Inv := by
  cases hs
  constructor <;> simp only [State.operandBuffer_congr ha hb, hres, hcmd, hstatus] <;> assumption

/-- An operand buffer in canonical form and within its capacity can be put in the state. -/
theorem State.Inv.withOperandBuffer {s : State} (hs : s.Inv) (b : OperandBuf) {o : OperandBuffer}
    (hwf : Memory.wf o.data) (hcap : ∀ c ∈ o.data, c.1 < Config.maxLen) : (s.withOperandBuffer b o).Inv where
  operandWf c := by
    by_cases hc : c = b
    · subst hc; rwa [State.withOperandBuffer_same]
    · rw [State.withOperandBuffer_other s hc]; exact hs.operandWf c
  operandCap c := by
    by_cases hc : c = b
    · subst hc; rwa [State.withOperandBuffer_same]
    · rw [State.withOperandBuffer_other s hc]; exact hs.operandCap c
  resWf := by simpa using hs.resWf
  resCap := by simpa using hs.resCap
  resFits := by simpa using hs.resFits
  resWritten := by simpa using hs.resWritten
  statusReserved := by simpa using hs.statusReserved
  codeLegal := by simpa using hs.codeLegal
  lastop := by simpa using hs.lastop
  codeNone := by simpa using hs.codeNone
  errorEmpty := by simpa using hs.errorEmpty

/-- After a command the invariant holds if RES is as it asks: the operands are as they were, and STATUS is the word of
an outcome with the OP of CMD. -/
theorem State.Inv.commandEnd {s t : State} {c : Code} (hs : s.Inv) (ha : t.opa = s.opa) (hb : t.opb = s.opb)
    (hwf : Memory.wf t.res.data) (hcap : ∀ x ∈ t.res.data, x.1 < Config.maxLen + 8)
    (hfits : t.res.len.toNat ≤ Config.maxLen + 8)
    (hwritten : ∀ i, i < t.res.len.toNat → (Memory.byteAt t.res.data i).isSome)
    (hc : c ≠ .none) (hstatus : t.status = statusWord c (opField t.cmd)) (herr : c ≠ .ok → t.res.len = 0) : t.Inv where
  operandWf b := by rw [State.operandBuffer_congr ha hb]; exact hs.operandWf b
  operandCap b := by rw [State.operandBuffer_congr ha hb]; exact hs.operandCap b
  resWf := hwf
  resCap := hcap
  resFits := hfits
  resWritten := hwritten
  statusReserved := by rw [hstatus, statusReservedZero_statusWord]
  codeLegal := by rw [hstatus, statusCode_statusWord]; exact c.bits_le
  lastop := by rw [hstatus, statusLastop_statusWord]
  codeNone h := absurd (Code.bits_injective (by rwa [hstatus, statusCode_statusWord] at h)) hc
  errorEmpty h := herr fun hok => h (by rw [hstatus, statusCode_statusWord, hok])

/-- A command that raises an error keeps the bytes of RES_DATA and has no result (R212). -/
theorem State.Inv.raise {s : State} (hs : s.Inv) (w : Word) (e : Err) : ((s.setCmd w).raise e).Inv :=
  hs.commandEnd (c := .error e) rfl rfl hs.resWf hs.resCap (by simp) (by simp) (by simp) rfl fun _ => rfl

/-- A command that completes with a result that fits has written every byte of it (R55). -/
theorem State.Inv.complete {s : State} (hs : s.Inv) (w : Word) {r : List Byte} (hr : r.length ≤ Config.maxLen + 8) :
    ((s.setCmd w).complete r).Inv := by
  have hlen : ((s.setCmd w).complete r).res.len.toNat = r.length := (State.complete_spec _ hr).len
  refine hs.commandEnd (c := .ok) rfl rfl (Memory.storeBytes_wf hs.resWf 0 r) (fun x hx => ?_) (by omega)
    (fun i hi => ?_) (by simp) rfl fun h => absurd rfl h
  · rcases Memory.mem_storeBytes hx with hx | ⟨-, hx⟩
    · exact hs.resCap x hx
    · omega
  · rw [hlen] at hi
    rw [State.complete_resData, Memory.byteAt_storeBytes, if_pos ⟨i.zero_le, by omega⟩]
    simpa using hi

theorem State.Inv.commandWrite {s t : State} {w : Word} (hs : s.Inv) (h : commandWrite w s = .next t) : t.Inv := by
  rcases commandWrite_ends w s with ⟨r, hr, hw⟩ | ⟨e, hw⟩ <;> cases hw.symm.trans h
  · exact hs.complete w hr
  · exact hs.raise w e

/-- A byte stored below MAXLEN keeps its buffer in canonical form and within its capacity (R37, R38). -/
theorem State.Inv.setByte {s : State} (hs : s.Inv) (b : OperandBuf) {i : Nat} (v : Byte) (hi : i < Config.maxLen) :
    (s.setByte b i v).Inv := by
  refine hs.withOperandBuffer b (Memory.store_wf (hs.operandWf b) i v) fun c hc => ?_
  rcases Memory.mem_store hc with rfl | hc
  · exact hi
  · exact hs.operandCap b c hc

/-- Settles O6: nothing is written, and CMD and STATUS are 0. -/
theorem resetMeetsInvariant : Obligations.ResetMeetsInvariant where
  operandWf b := by cases b <;> exact Memory.wf_nil
  operandCap b := by cases b <;> simp [State.reset, State.operandBuffer, OperandBuffer.reset]
  resWf := Memory.wf_nil
  resCap := by simp [State.reset]
  resFits := Nat.zero_le _
  resWritten i hi := absurd hi (Nat.not_lt_zero i)
  statusReserved := by decide
  codeLegal := by decide
  lastop := by decide
  codeNone _ := rfl
  errorEmpty _ := rfl

/-- Every input that is taken keeps the invariant. -/
theorem State.Inv.acceptInput {x : Input} {s t : State} (hs : s.Inv) (h : acceptInput x s = .next t) : t.Inv := by
  cases x with
  | wrCmd w => exact hs.commandWrite h
  | wrPresent b v => cases h; exact hs.withOperandBuffer b (hs.operandWf b) (hs.operandCap b)
  | wrLen b v => cases h; exact hs.withOperandBuffer b (hs.operandWf b) (hs.operandCap b)
  | wrData b i v => obtain ⟨hi, rfl⟩ := ifByte_next h; exact hs.setByte b v hi
  | wrStatus v => cases h; exact hs
  | wrResLen v => cases h; exact hs
  | wrResData i v => obtain ⟨-, rfl⟩ := ifByte_next h; exact hs
  | rd r => cases h; exact hs.congr rfl rfl rfl rfl rfl
  | rdb b i => obtain ⟨-, rfl⟩ := ifByte_next h; exact hs.congr rfl rfl rfl rfl rfl
  | reset => cases h; exact resetMeetsInvariant.congr rfl rfl rfl rfl rfl

/-- Settles O5: a step takes no input or one, and every input keeps the invariant. -/
theorem stepKeepsInvariant : Obligations.StepKeepsInvariant := by
  intro s t hs h
  rcases step_cases s with ⟨-, hstep⟩ | ⟨x, rest, -, hstep⟩ <;> rw [hstep] at h
  · cases h; exact hs
  · have hpop : (s.popInput rest).Inv := hs.congr rfl rfl rfl rfl rfl
    exact hpop.acceptInput h

end Sys2Proof.Machine
end

section
/-! PROOFS of the family 10_state.md, part 4: hidden state, the registers a command writes, operand storage and faults.
-/

namespace Sys2Proof.Machine

/-- A CMD write does the same whatever the hidden registers hold. -/
theorem commandWrite_setHidden (w : Word) (s : State) (h : Hidden) :
    commandWrite w { s with hid := h } = commandWrite w s := by
  unfold commandWrite
  cases decode w with
  | command i => exact exec_setHidden_setStatus i (s.setCmd w) h s.status
  | illegal _ => rfl

/-- An input that is taken is taken whatever the hidden registers hold, and the next states differ in them only: a CMD
write and RESET write them anew, every other input leaves them. -/
theorem acceptInput_setHidden {x : Input} {s t : State} (h : Hidden) (ht : acceptInput x s = .next t) :
    ∃ h', acceptInput x { s with hid := h } = .next { t with hid := h' } := by
  cases x with
  | wrCmd w => exact ⟨t.hid, (commandWrite_setHidden w s h).trans ht⟩
  | wrPresent b v => cases ht; cases b <;> exact ⟨h, rfl⟩
  | wrLen b v => cases ht; cases b <;> exact ⟨h, rfl⟩
  | wrData b i v => obtain ⟨hi, rfl⟩ := ifByte_next ht; cases b <;> exact ⟨h, ifByte_lt hi⟩
  | wrStatus v => cases ht; exact ⟨h, rfl⟩
  | wrResLen v => cases ht; exact ⟨h, rfl⟩
  | wrResData i v => obtain ⟨hi, rfl⟩ := ifByte_next ht; exact ⟨h, ifByte_lt hi⟩
  | rd r => cases ht; cases r <;> exact ⟨h, rfl⟩
  | rdb b i => obtain ⟨hi, rfl⟩ := ifByte_next ht; cases b <;> exact ⟨h, ifByte_lt hi⟩
  | reset => cases ht; exact ⟨_, rfl⟩

/-- Settles O22: a command's body computes a pure function of its operands (`bodyOf_setHidden_setStatus`), and no other
input reads the hidden registers. -/
theorem hiddenStateIsNeverObservable : Obligations.HiddenStateIsNeverObservable := by
  refine ⟨fun i s h => exec_setHidden_setStatus i s h s.status, fun s t h ht => ?_,
    fun s h => ⟨fun r => ?_, fun b i => ?_⟩⟩
  · rcases step_cases s with ⟨hnil, hstep⟩ | ⟨x, rest, hcons, hstep⟩ <;> rw [hstep] at ht
    · cases ht
      exact ⟨h, by rw [step, stepInput, hnil]⟩
    · obtain ⟨h', hh'⟩ := acceptInput_setHidden h ht
      exact ⟨h', (step_cons (s := { s with hid := h }) hcons).trans hh'⟩
  · cases r <;> rfl
  · cases b <;> rfl

/-- Settles O9: a CMD write writes the word of an outcome; `acceptInput_frame` covers every other input but RESET. -/
theorem statusIsWrittenByCommandsOnly : Obligations.StatusIsWrittenByCommandsOnly := by
  intro s t x rest hx ht
  rw [step_cons hx] at ht
  cases x
  case wrCmd w =>
    obtain ⟨-, c, hc, hstatus⟩ := commandWrite_cmd_status ht
    simp only [hstatus, statusReservedZero_statusWord, statusCode_statusWord, statusLastop_statusWord]
    exact ⟨trivial, Code.bits_pos hc, c.bits_le, trivial⟩
  case reset => cases ht; rfl
  all_goals exact (acceptInput_frame (by simp) (by simp) ht).2.2

/-- Settles O11: as O9, for CMD. -/
theorem cmdReadsBackTheLastWord : Obligations.CmdReadsBackTheLastWord := by
  intro s t x rest hx ht
  rw [step_cons hx] at ht
  cases x
  case wrCmd w => exact congrArg Datum.word (commandWrite_cmd_status ht).1
  case reset => cases ht; rfl
  all_goals exact congrArg Datum.word (acceptInput_frame (by simp) (by simp) ht).2.1

/-- Settles O10: STATUS is not read (`exec_setHidden_setStatus`), and both ends of a command write it. -/
theorem noCommandReadsStatus : Obligations.NoCommandReadsStatus := by
  refine ⟨fun i s v => exec_setHidden_setStatus i s s.hid v, fun i s => ?_⟩
  rcases exec_ends i s with ⟨r, -, h⟩ | ⟨e, h⟩
  · exact ⟨_, .ok, h, by simp, rfl⟩
  · exact ⟨_, .error e, h, by simp, rfl⟩

/-- Settles O12, from what the two ends of a command do. -/
theorem commandFrame : Obligations.CommandFrame := by
  intro i s t ht
  rcases exec_ends i s with ⟨r, hr, h⟩ | ⟨e, h⟩ <;> cases h.symm.trans ht
  · have hc := State.complete_spec s hr
    exact ⟨hc.same, fun a ha => hc.above a (hc.len ▸ ha), .ok, by simp, hc.status, fun h => absurd rfl h⟩
  · have hr := State.raise_spec s e
    exact ⟨hr.same, fun a _ => hr.stored a, .error e, by simp, hr.status, fun _ => hr.len⟩

/-- Settles O19: a stored byte by `State.setByte_operandByte`, an over-capacity operand by `exec_overCapacity`. -/
theorem operandStorageIsPlainMemory : Obligations.OperandStorageIsPlainMemory := by
  refine ⟨fun s b i v rest hx hi => ?_, fun s t rest hx ht b i => ?_, fun s b v rest hx => ?_,
    fun i s b hb hp hlen => ?_⟩
  · have hpop := State.operandByte_congr (s := s) (t := s.popInput rest) rfl rfl rfl
    refine ⟨(s.popInput rest).setByte b i v, (step_cons hx).trans (ifByte_lt hi), ?_, fun c j hcj => ?_⟩
    · simp [State.readByte, State.setByte_operandByte]
    · have hne : ¬ (c = b ∧ j = i) := fun ⟨hc, hj⟩ => hcj (by rw [hc, hj])
      simp only [State.readByte, State.setByte_operandByte, if_neg hne, hpop]
  · cases (step_cons hx).symm.trans ht
    cases b <;> rfl
  · refine ⟨(s.popInput rest).setLen b v, step_cons hx, ?_⟩
    simp [State.readReg, State.setLen]
  · have hover : (usedOperands i).any s.overCapacity = true :=
      List.any_eq_true.mpr ⟨b, hb, by simp [State.overCapacity, hp, hlen]⟩
    exact ⟨_, exec_overCapacity hover⟩

/-- Settles O20: a step faults as the input it takes does (`acceptInput_fault_iff`). -/
theorem faultsOnlyOutsideABuffer : Obligations.FaultsOnlyOutsideABuffer := by
  refine fun s => ⟨⟨fun ⟨f, hf⟩ => ?_, fun ⟨x, rest, hx, hwf⟩ => ?_⟩, fun b i rest hx hi => ?_,
    fun b i v rest hx hi => ?_, fun i v rest hx hi => ?_, fun r => ?_⟩
  · rcases step_cases s with ⟨-, hstep⟩ | ⟨x, rest, hx, hstep⟩ <;> rw [hstep] at hf
    · cases hf
    · exact ⟨x, rest, hx, (acceptInput_fault_iff x _).mp ⟨f, hf⟩⟩
  · rw [step_cons hx]
    exact (acceptInput_fault_iff x _).mpr hwf
  · exact (step_cons hx).trans (ifByte_ge hi)
  · exact (step_cons hx).trans (ifByte_ge (b := .operand b) hi)
  · exact (step_cons hx).trans (ifByte_ge hi)
  · rcases step_cases s with ⟨-, hstep⟩ | ⟨x, rest, -, hstep⟩ <;> rw [hstep]
    · simp
    · exact acceptInput_not_refused x _ r

end Sys2Proof.Machine
end

section
/-! PROOFS of the family 20_memory.md, part 1: the outcome of a CMD write. It is a function of the word and of the
operands the command uses (R208), and STATUS, RES_LEN and the result are functions of it and of the word. -/

namespace Sys2Proof.Machine

/-! ## The outcome of a word -/

/-- What the word `w` written to CMD comes to: a result, or the first error that applies in the order of R215. -/
def outcomeOf (w : Word) (s : State) : Except Err (List Byte) :=
  match decode w with
  | .command i => if (usedOperands i).any s.overCapacity then .error .unsupported else bodyOf i s
  | .illegal _ => .error .unsupported

theorem outcomeOf_illegal {w : Word} {why : IllegalWord} (h : decode w = .illegal why) (s : State) :
    outcomeOf w s = .error .unsupported := by
  simp only [outcomeOf, h]

theorem outcomeOf_command {w : Word} {i : Instr} (h : decode w = .command i) (s : State) :
    outcomeOf w s = if (usedOperands i).any s.overCapacity then .error .unsupported else bodyOf i s := by
  simp only [outcomeOf, h]

/-- The end of a command with a given outcome (R15). -/
def State.finish (o : Except Err (List Byte)) (s : State) : State :=
  match o with
  | .ok r => s.complete r
  | .error e => s.raise e

@[simp] theorem State.finish_ok (s : State) (r : List Byte) : s.finish (.ok r) = s.complete r := rfl
@[simp] theorem State.finish_error (s : State) (e : Err) : s.finish (.error e) = s.raise e := rfl

/-- `runCommand` ends with UNSUPPORTED for an operand over capacity, else with the outcome of the body. -/
theorem State.runCommand_eq_finish (s : State) (used : List OperandBuf) (body : Except Err (List Byte)) :
    s.runCommand used body = s.finish (if used.any s.overCapacity then .error .unsupported else body) := by
  rcases s.runCommand_cases used body with ⟨hc, h⟩ | ⟨hc, r, rfl, h⟩ | ⟨hc, e, rfl, h⟩ <;> simp [h, hc]

/-- No command reads CMD before its end. -/
theorem bodyOf_setCmd (i : Instr) (s : State) (w : Word) : bodyOf i (s.setCmd w) = bodyOf i s := by
  cases i <;> rfl

/-- A CMD write is CMD taking the word, then the end of a command with the word's outcome (R26, R74, R215). -/
theorem commandWrite_eq_finish (w : Word) (s : State) :
    commandWrite w s = .next ((s.setCmd w).finish (outcomeOf w s)) := by
  cases h : decode w with
  | command i =>
    simp only [commandWrite, h, exec_eq, State.runCommand_eq_finish, bodyOf_setCmd, outcomeOf_command h]
    rfl
  | illegal why => simp only [commandWrite, h, outcomeOf_illegal h, State.finish_error]

/-- The result of every word fits RES_DATA (R182). -/
theorem outcomeOf_length_le {w : Word} {s : State} {r : List Byte} (h : outcomeOf w s = .ok r) :
    r.length ≤ Config.maxLen + 8 := by
  cases hd : decode w with
  | illegal why => rw [outcomeOf_illegal hd] at h; cases h
  | command i =>
    rw [outcomeOf_command hd] at h
    split at h
    · cases h
    · next hc => exact bodyOf_length_le h (Bool.eq_false_iff.mpr hc)

/-! ## It depends on the used operands only -/

/-- An operand is over capacity exactly when it is a byte string longer than MAXLEN. -/
theorem State.overCapacity_iff (s : State) (b : OperandBuf) :
    s.overCapacity b = true ↔ ∃ x, s.operand b = some x ∧ Config.maxLen < x.length := by
  unfold State.overCapacity State.operand
  cases (s.operandBuffer b).present <;> simp

theorem State.overCapacity_congr {s t : State} {b : OperandBuf} (h : t.operand b = s.operand b) :
    t.overCapacity b = s.overCapacity b := by
  rw [Bool.eq_iff_iff, State.overCapacity_iff, State.overCapacity_iff, h]

/-- A command's body is a function of the operands it uses, whatever the rest of the state (R35, R208). -/
theorem bodyOf_congr {i : Instr} {s t : State} (h : ∀ b ∈ usedOperands i, t.operand b = s.operand b) :
    bodyOf i t = bodyOf i s := by
  cases i <;> simp only [usedOperands, List.forall_mem_cons] at h
  case enc => simp only [bodyOf, encBody, encRun_output, h]
  case dec => simp only [bodyOf, decBody, decRun_wbuf, h]
  case genkeys => simp only [bodyOf, genkeysBody, Hidden.keygen_rkf, h]
  all_goals simp only [bodyOf, h]

theorem outcomeOf_congr {w : Word} {s t : State}
    (h : ∀ i, decode w = .command i → ∀ b ∈ usedOperands i, t.operand b = s.operand b) :
    outcomeOf w t = outcomeOf w s := by
  cases hd : decode w with
  | illegal why => rw [outcomeOf_illegal hd, outcomeOf_illegal hd]
  | command i =>
    have hany : (usedOperands i).any t.overCapacity = (usedOperands i).any s.overCapacity := by
      rw [Bool.eq_iff_iff, List.any_eq_true, List.any_eq_true]
      exact exists_congr fun b => and_congr_right fun hb => by rw [State.overCapacity_congr (h i hd b hb)]
    rw [outcomeOf_command hd, outcomeOf_command hd, hany, bodyOf_congr (h i hd)]

/-- What the host sees of an outcome that fits is fixed by the outcome and CMD, whatever RES held before. -/
theorem State.finish_congr {s t : State} {o : Except Err (List Byte)} (hcmd : t.cmd = s.cmd)
    (hfits : ∀ r, o = .ok r → r.length ≤ Config.maxLen + 8) :
    (t.finish o).status = (s.finish o).status ∧ (t.finish o).res.len = (s.finish o).res.len ∧
      (t.finish o).result = (s.finish o).result := by
  cases o with
  | ok r =>
    have hr := hfits r rfl
    refine ⟨by simp [hcmd], rfl, ?_⟩
    exact (t.complete_spec hr).result.trans (s.complete_spec hr).result.symm
  | error e => simp [State.result, hcmd]

/-- Two states that agree on the operands a word uses agree on STATUS, RES_LEN and the result after it (R208). -/
theorem commandWrite_congr {w : Word} {s t s' t' : State}
    (h : ∀ i, decode w = .command i → ∀ b ∈ usedOperands i, t.operand b = s.operand b)
    (hs : commandWrite w s = .next s') (ht : commandWrite w t = .next t') :
    t'.status = s'.status ∧ t'.res.len = s'.res.len ∧ t'.result = s'.result := by
  rw [commandWrite_eq_finish] at hs ht
  rw [outcomeOf_congr h] at ht
  cases hs
  cases ht
  exact State.finish_congr rfl fun _ => outcomeOf_length_le

/-- A CMD write keeps everything SameInputs names but CMD, which takes the word. -/
theorem commandWrite_same {w : Word} {s t : State} (h : commandWrite w s = .next t) : SameInputs (s.setCmd w) t := by
  rcases commandWrite_ends w s with ⟨r, hr, hw⟩ | ⟨e, hw⟩ <;> cases hw.symm.trans h
  · exact (State.complete_spec _ hr).same
  · exact (State.raise_spec _ e).same

end Sys2Proof.Machine
end

section
/-! PROOFS of the family 20_memory.md, part 2: what each host access does (R54), and the step of a command's word
(R55, R75). -/

namespace Sys2Proof.Machine

/-! ## Reads and byte writes -/

@[simp] theorem State.popInput_readReg (s : State) (xs : List Input) (r : Reg) :
    (s.popInput xs).readReg r = s.readReg r := by
  cases r <;> rfl

@[simp] theorem State.popInput_readByte (s : State) (xs : List Input) (b : Buf) (i : Nat) :
    (s.popInput xs).readByte b i = s.readByte b i := by
  cases b with
  | operand c => exact State.operandByte_congr rfl rfl rfl c i
  | res => rfl

/-- A byte write leaves PRESENT and LEN of both operands (R28, R38). -/
theorem State.setByte_present_len (s : State) (b c : OperandBuf) (i : Nat) (v : Byte) :
    ((s.setByte b i v).operandBuffer c).present = (s.operandBuffer c).present ∧
      ((s.setByte b i v).operandBuffer c).len = (s.operandBuffer c).len := by
  by_cases hc : c = b
  · subst hc; simp [State.setByte]
  · simp [State.setByte, State.withOperandBuffer_other s hc]

/-- A byte write writes the operand buffers only. -/
theorem State.setByte_frame (s : State) (b : OperandBuf) (i : Nat) (v : Byte) :
    s.setByte b i v = { s with opa := (s.setByte b i v).opa, opb := (s.setByte b i v).opb } := by
  cases b <;> rfl

/-! ## The word of a command -/

/-- The decoder reads each command back from its word (R75). -/
theorem decode_encode (i : Instr) : decode (encode i) = .command i := by
  cases i <;> decide

/-- The write that `withFetchWord` places is the write of the command's word. -/
theorem withFetchWord_encode_inputs (s : State) (i : Instr) :
    (s.withFetchWord 32 (encode i).toNat).inputs = .wrCmd (encode i) :: s.inputs := by
  rw [State.withFetchWord, Nat.mod_eq_of_lt (encode i).isLt, BitVec.ofNat_toNat, BitVec.setWidth_eq]

/-! ## Steps -/

section
variable {s : State} {rest : List Input}

theorem step_rd {r : Reg} (h : s.inputs = .rd r :: rest) :
    step s = .next ((s.popInput rest).deliver (s.readReg r)) := by
  rw [step_cons h, acceptInput, State.popInput_readReg]

theorem step_rdb {b : Buf} {i : Nat} (h : s.inputs = .rdb b i :: rest) (hi : i < b.capacity) :
    step s = .next ((s.popInput rest).deliver (.byte (s.readByte b i))) := by
  rw [step_cons h, acceptInput, ifByte_lt hi, State.popInput_readByte]

theorem step_wrData {b : OperandBuf} {i : Nat} {v : Byte} (h : s.inputs = .wrData b i v :: rest)
    (hi : i < Config.maxLen) : step s = .next ((s.popInput rest).setByte b i v) := by
  rw [step_cons h, acceptInput, ifByte_lt hi]

theorem step_wrResData {i : Nat} {v : Byte} (h : s.inputs = .wrResData i v :: rest) (hi : i < Buf.res.capacity) :
    step s = .next (s.popInput rest) := by
  rw [step_cons h, acceptInput, ifByte_lt hi]

/-- A word written twice gives the same result twice: the first write leaves the operands as they were. -/
theorem step_wrCmd_twice {w : Word} {t u : State} (h : s.inputs = .wrCmd w :: .wrCmd w :: rest)
    (ht : step s = .next t) (hu : step t = .next u) :
    u.status = t.status ∧ u.res.len = t.res.len ∧ u.result = t.result := by
  rw [step_cons h] at ht
  have hsame := commandWrite_same ht
  rw [step_cons hsame.inputs] at hu
  have hoperand : ∀ b, (t.popInput rest).operand b = (s.popInput (.wrCmd w :: rest)).operand b :=
    State.operand_congr hsame.opa hsame.opb hsame.resetNo
  exact commandWrite_congr (fun _ _ b _ => hoperand b) ht hu

end

/-- Settles O18: one lemma for each access that reads, checks an index or runs a command; the others are the input's
own update (`step_cons`). -/
theorem hostAccessesHaveNoOtherEffect : Obligations.HostAccessesHaveNoOtherEffect := by
  intro s rest
  refine ⟨fun r => step_rd, fun b i => step_rdb, fun v => step_cons, fun v => step_cons, fun i v => step_wrResData,
    fun v => step_cons, fun v => step_cons, fun v => step_cons, fun v => step_cons, fun b i v hx hi => ?_,
    fun w t u => step_wrCmd_twice⟩
  have hpop := State.operandByte_congr (s := s) (t := s.popInput rest) rfl rfl rfl
  have hbuf := State.operandBuffer_congr (s := s) (t := s.popInput rest) rfl rfl
  refine ⟨_, step_wrData hx hi, fun c j => ?_, fun c => ?_, (s.popInput rest).setByte_frame b i v⟩
  · rw [State.setByte_operandByte, hpop]
  · rw [← hbuf c]
    exact (s.popInput rest).setByte_present_len b c i v

/-- Settles O4: `step_wrCmd_command` for the word written, and for the word that `withFetchWord` places. -/
theorem stepRunsTheDecodedCommand : Obligations.StepRunsTheDecodedCommand := by
  refine ⟨fun s w rest i => step_wrCmd_command, fun s i => ?_, fun s hnil => ?_⟩
  · exact step_wrCmd_command (withFetchWord_encode_inputs s i) (decode_encode i)
  · rw [step, stepInput, hnil]

end Sys2Proof.Machine
end

section
/-! PROOFS of the family 30_encoding.md, part 1: the two fields of a command word, and the decoder as the inverse of the
encoder (R70 to R75). -/

namespace Sys2Proof

open Sys2Proof.Machine

/-! ## The fields of a word (R70) -/

theorem opField_toNat (w : Word) : (opField w).toNat = w.toNat % 256 := by
  simp [opField]

theorem rsvdField_toNat (w : Word) : (rsvdField w).toNat = w.toNat / 256 := by
  have := w.isLt
  simp only [rsvdField, BitVec.extractLsb'_toNat, Nat.shiftRight_eq_div_pow]
  omega

/-- OP and RSVD are the whole word. -/
theorem word_eq_of_fields {v w : Word} (hop : opField v = opField w) (hrsvd : rsvdField v = rsvdField w) : v = w := by
  have hop' := congrArg BitVec.toNat hop
  have hrsvd' := congrArg BitVec.toNat hrsvd
  rw [opField_toNat, opField_toNat] at hop'
  rw [rsvdField_toNat, rsvdField_toNat] at hrsvd'
  exact BitVec.eq_of_toNat_eq (by omega)

theorem rsvdField_encode (i : Instr) : rsvdField (encode i) = 0 := by
  cases i <;> decide

/-- The words of the opcode map are 1 to 7 (R72). -/
theorem exists_eq_encode_iff (w : Word) : (∃ i, w = encode i) ↔ 1 ≤ w.toNat ∧ w.toNat ≤ 7 := by
  constructor
  · rintro ⟨i, rfl⟩
    cases i <;> decide
  · rintro ⟨hlow, hhigh⟩
    obtain h | h | h | h | h | h | h : w.toNat = 1 ∨ w.toNat = 2 ∨ w.toNat = 3 ∨ w.toNat = 4 ∨ w.toNat = 5 ∨
      w.toNat = 6 ∨ w.toNat = 7 := by omega
    · exact ⟨.enc, BitVec.eq_of_toNat_eq h⟩
    · exact ⟨.dec, BitVec.eq_of_toNat_eq h⟩
    · exact ⟨.genkeys, BitVec.eq_of_toNat_eq h⟩
    · exact ⟨.iperm, BitVec.eq_of_toNat_eq h⟩
    · exact ⟨.fperm, BitVec.eq_of_toNat_eq h⟩
    · exact ⟨.feistel, BitVec.eq_of_toNat_eq h⟩
    · exact ⟨.sbox, BitVec.eq_of_toNat_eq h⟩

theorem forall_ne_encode_iff (w : Word) : (∀ i, w ≠ encode i) ↔ w.toNat = 0 ∨ 8 ≤ w.toNat := by
  rw [← not_exists, exists_eq_encode_iff]
  omega

/-- R74's condition on the fields is one on the value of the word. -/
theorem illegalFields_iff (w : Word) :
    (opField w = 0 ∨ 8 ≤ (opField w).toNat ∨ rsvdField w ≠ 0) ↔ w.toNat = 0 ∨ 8 ≤ w.toNat := by
  rw [Ne, ← BitVec.toNat_inj, ← BitVec.toNat_inj (x := rsvdField w), opField_toNat, rsvdField_toNat]
  show w.toNat % 256 = 0 ∨ 8 ≤ w.toNat % 256 ∨ ¬ w.toNat / 256 = 0 ↔ _
  omega

/-! ## The decoder (R72, R75) -/

/-- An OP that is read as a command is the OP of that command's word. -/
theorem opField_encode_of_decodeOp {op : Byte} {i : Instr} (h : decodeOp op = .command i) :
    op = opField (encode i) := by
  unfold decodeOp at h
  split_ifs at h with hop hop hop hop hop hop hop <;> cases h <;> exact hop

/-- A word decodes to a command exactly when it is the command's whole word. -/
theorem decode_eq_command_iff (w : Word) (i : Instr) : decode w = .command i ↔ w = encode i := by
  constructor
  · intro h
    unfold decode at h
    split_ifs at h with hrsvd
    have hrsvd0 : rsvdField w = rsvdField (encode i) := (not_not.mp hrsvd).trans (rsvdField_encode i).symm
    exact word_eq_of_fields (opField_encode_of_decodeOp h) hrsvd0
  · rintro rfl
    exact decode_encode i

/-- The decoder is total: a word is illegal exactly when it is no command's word (R74, R75). -/
theorem decode_illegal_iff (w : Word) : (∃ why, decode w = .illegal why) ↔ ∀ i, w ≠ encode i := by
  simp only [Ne, ← decode_eq_command_iff]
  cases decode w <;> simp

/-! ## The obligations -/

/-- Settles O1: each word is evaluated, the commands' words by `decode_encode`. -/
theorem opcodeWordsDecode : Obligations.OpcodeWordsDecode :=
  ⟨decode_encode .enc, decode_encode .dec, decode_encode .genkeys, decode_encode .iperm, decode_encode .fperm,
    decode_encode .feistel, decode_encode .sbox, by decide, by decide, by decide⟩

/-- Settles O2, by the decoder's inversion `decode_eq_command_iff` and the values 1 to 7 of the words. -/
theorem eachWordSelectsOneCommand : Obligations.EachWordSelectsOneCommand := by
  refine ⟨decode_eq_command_iff, fun i => ?_, ⟨rfl, rfl, rfl, rfl, rfl, rfl, rfl⟩, fun w => ?_⟩
  · cases i <;> decide
  · rw [decode_illegal_iff, forall_ne_encode_iff]

/-- Settles O3: a word with such fields is no command's word, so it decodes as illegal and its write raises
UNSUPPORTED without reading an operand. -/
theorem illegalWordFinishesUnsupported : Obligations.IllegalWordFinishesUnsupported := by
  have hfields : ∀ w : Word, (opField w = 0 ∨ 8 ≤ (opField w).toNat ∨ rsvdField w ≠ 0) ↔ ∀ i, w ≠ encode i :=
    fun w => (illegalFields_iff w).trans (forall_ne_encode_iff w).symm
  refine ⟨hfields, fun s w rest hx hw => ?_⟩
  obtain ⟨why, hwhy⟩ := (decode_illegal_iff w).mpr ((hfields w).mp hw)
  exact ⟨_, step_wrCmd_illegal hx hwhy, State.raise_spec _ _⟩

end Sys2Proof
end

section
/-! PROOFS of the family 30_encoding.md, part 2: the pseudo-instructions LOADA and LOADB (R77). The run of their inputs
is one update of the operand buffer. -/

namespace Sys2Proof.Machine

/-! ## Storing a byte string in an operand -/

/-- What the byte writes of `writeBytesFrom` do to the operand buffer together. -/
def State.setBytes (b : OperandBuf) (a : Nat) (xs : List Byte) (s : State) : State :=
  s.withOperandBuffer b { s.operandBuffer b with data := Memory.storeBytes (s.operandBuffer b).data a xs }

theorem State.setBytes_nil (b : OperandBuf) (a : Nat) (s : State) : s.setBytes b a [] = s := by
  cases b <;> rfl

theorem State.setBytes_cons (b : OperandBuf) (a : Nat) (x : Byte) (xs : List Byte) (s : State) :
    s.setBytes b a (x :: xs) = (s.setByte b a x).setBytes b (a + 1) xs := by
  cases b <;> rfl

/-- The run of the byte writes of a string that fits stores the string. -/
theorem core_run_writeBytesFrom {s : State} {b : OperandBuf} {a : Nat} {xs : List Byte} {rest : List Input}
    (hin : s.inputs = writeBytesFrom b a xs ++ rest) (hfit : a + xs.length ≤ Config.maxLen) :
    Host.Core.run Sys2Proof.core xs.length s = .next ((s.setBytes b a xs).popInput rest) := by
  induction xs generalizing s a with
  | nil =>
    cases hin
    rw [State.setBytes_nil]
    rfl
  | cons x xs ih =>
    rw [List.length_cons] at hfit ⊢
    have hstep := step_wrData (rest := writeBytesFrom b (a + 1) xs ++ rest) hin (by omega)
    refine (core_run_succ hstep _).trans ((ih (State.withOperandBuffer_inputs _ b _) (by omega)).trans ?_)
    rw [State.setBytes_cons]
    cases b <;> rfl

/-! ## Loading an operand -/

/-- The operand `b` made present with the bytes `xs` from index 0 on, the bytes above them kept. -/
def State.load (b : OperandBuf) (xs : List Byte) (s : State) : State :=
  s.withOperandBuffer b
    { present := true, len := BitVec.ofNat 32 xs.length, data := Memory.storeBytes (s.operandBuffer b).data 0 xs }

theorem step_wrPresent {s : State} {b : OperandBuf} {v : Bool} {rest : List Input}
    (h : s.inputs = .wrPresent b v :: rest) : step s = .next ((s.popInput rest).setPresent b v) :=
  step_cons h

theorem step_wrLen {s : State} {b : OperandBuf} {v : Word} {rest : List Input} (h : s.inputs = .wrLen b v :: rest) :
    step s = .next ((s.popInput rest).setLen b v) :=
  step_cons h

/-- The run of LOADA or LOADB, PRESENT and LEN first and then the bytes, loads the operand (R77). -/
theorem core_run_pseudoLoad {s : State} {b : OperandBuf} {xs : List Byte} {rest : List Input}
    (hin : s.inputs = pseudoLoad b xs ++ rest) (hfit : xs.length ≤ Config.maxLen) :
    Host.Core.run Sys2Proof.core (xs.length + 2) s = .next ((s.load b xs).popInput rest) := by
  refine Eq.trans (core_run_succ (step_wrPresent hin) _) ?_
  refine Eq.trans (core_run_succ (step_wrLen (State.withOperandBuffer_inputs _ b _)) _) ?_
  refine Eq.trans (core_run_writeBytesFrom (State.withOperandBuffer_inputs _ b _) (by omega)) ?_
  cases b <;> rfl

/-- A loaded operand's bytes are the string, and above it what they were (R38). -/
theorem State.load_operandByte (s : State) (b : OperandBuf) (xs : List Byte) (i : Nat) :
    (s.load b xs).operandByte b i = xs[i]?.getD (s.operandByte b i) := by
  simp only [State.load, State.operandByte, State.withOperandBuffer_same, State.withOperandBuffer_resetNo,
    Memory.byteAt_storeBytes, Nat.zero_le, true_and, Nat.zero_add, Nat.sub_zero]
  split
  · next hi => simp [hi]
  · next hi => simp [hi]

/-- The operand loaded is the byte string, if its length fits LEN (R14). -/
theorem State.load_operand (s : State) (b : OperandBuf) {xs : List Byte} (hlen : xs.length < 2 ^ 32) :
    (s.load b xs).operand b = some xs := by
  have hpresent : ((s.load b xs).operandBuffer b).present = true := by simp [State.load]
  have htoNat : ((s.load b xs).operandBuffer b).len.toNat = xs.length := by
    simp only [State.load, State.withOperandBuffer_same, BitVec.toNat_ofNat, Nat.mod_eq_of_lt hlen]
  rw [State.operand, if_pos hpresent, htoNat, Option.some_inj]
  refine List.ext_getElem (by simp) fun i _ hi => ?_
  simp [State.load_operandByte, hi]

/-- Settles O21: the run is `State.load` (`core_run_pseudoLoad`), which writes one operand buffer. -/
theorem loadMakesTheOperand : Obligations.LoadMakesTheOperand := by
  intro s b xs rest hin hfit
  have hsmall := Config.maxLen_small
  have hbyte := State.operandByte_congr (s := s.load b xs) (t := (s.load b xs).popInput rest) rfl rfl rfl b
  refine ⟨_, core_run_pseudoLoad hin hfit, ?_, fun i hi => ?_, fun c hc => ?_, ?_, ?_, ?_, rfl⟩
  · exact (State.operand_congr rfl rfl rfl b).trans (s.load_operand b (by omega))
  · rw [hbyte, State.load_operandByte, List.getElem?_eq_none hi, Option.getD_none]
  · exact (State.operandBuffer_congr rfl rfl c).trans (State.withOperandBuffer_other s hc _)
  · exact State.withOperandBuffer_res s b _
  · exact State.withOperandBuffer_cmd s b _
  · exact State.withOperandBuffer_status s b _

end Sys2Proof.Machine
end

section
/-! PROOFS of the family 40_permutation.md: PERM with a table that lists each index once is a bijection (R103, R104,
R108), FP inverts IP (R105), and the groups of E (R107). -/

namespace Sys2Proof.Machine

/-! ## Tables that list each index once -/

section
variable {n : Nat} {T : List Nat}

theorem length_of_perm_range' (h : T.Perm (List.range' 1 n)) : T.length = n := by
  rw [h.length_eq, List.length_range']

/-- Every index of such a table's domain stands at some position of the table. -/
theorem exists_getElem_of_perm_range' (h : T.Perm (List.range' 1 n)) {j : Nat} (hj : j < n) :
    ∃ (i : Nat) (hi : i < T.length), T[i] = j + 1 := by
  have hmem : j + 1 ∈ T := h.mem_iff.mpr (List.mem_range'_1.mpr ⟨by omega, by omega⟩)
  exact List.getElem_of_mem hmem

/-- Every entry of such a table names a bit of the value. -/
theorem getD_pred_lt (h : T.Perm (List.range' 1 n)) {i : Nat} (hi : i < n) : T.getD i 0 - 1 < n := by
  have hiT : i < T.length := by rwa [length_of_perm_range' h]
  have hrange := List.mem_range'_1.mp (h.mem_iff.mp (List.getElem_mem hiT))
  rw [← List.getElem_eq_getD (h := hiT)]
  omega

/-- PERM with such a table loses no bit: input bit j is output bit i where T[i] = j. -/
theorem perm_injective (h : T.Perm (List.range' 1 n)) : Function.Injective (perm n T : BitVec n → BitVec n) := by
  intro v w hvw
  refine BitVec.eq_of_getMsbD_eq fun j hj => ?_
  have hlen := length_of_perm_range' h
  obtain ⟨i, hi, hTi⟩ := exists_getElem_of_perm_range' h hj
  have hbit : ∀ u : BitVec n, (perm n T u).getMsbD i = u.getMsbD j := fun u => by
    rw [perm_getMsbD T u hlen hi, hTi, desBit, Nat.add_sub_cancel]
  rw [← hbit v, ← hbit w, hvw]

/-- A one-to-one map between values of one width is onto. -/
theorem perm_bijective (h : T.Perm (List.range' 1 n)) : Function.Bijective (perm n T : BitVec n → BitVec n) :=
  Finite.injective_iff_bijective.mp (perm_injective h)

/-- PERM(T) undoes PERM(U) if U[T[i]] = i at every position (R105). -/
theorem perm_leftInverse {U : List Nat} (hT : T.Perm (List.range' 1 n)) (hU : U.length = n)
    (hUT : ∀ i < n, U.getD (T.getD i 0 - 1) 0 = i + 1) :
    Function.LeftInverse (perm n T : BitVec n → BitVec n) (perm n U) := by
  intro v
  refine BitVec.eq_of_getMsbD_eq fun i hi => ?_
  rw [perm_getMsbD_getD T _ (length_of_perm_range' hT) hi, perm_getMsbD_getD U v hU (getD_pred_lt hT hi),
    hUT i hi, Nat.add_sub_cancel]

end

/-! ## IP, FP and P -/

theorem tableIP_perm : tableIP.Perm (List.range' 1 64) := by decide

theorem tableFP_perm : tableFP.Perm (List.range' 1 64) := by decide

theorem tableP_perm : tableP.Perm (List.range' 1 32) := by decide

/-- FP[IP[i]] = i, with 0-based positions (R105). -/
theorem tableFP_tableIP : ∀ i < 64, tableFP.getD (tableIP.getD i 0 - 1) 0 = i + 1 := by decide

/-- Settles O33: the tables are evaluated, and PERM with such a table is a bijection (`perm_bijective`). -/
theorem permutationsAreBijections : Obligations.PermutationsAreBijections :=
  ⟨tableIP_perm, tableFP_perm, tableP_perm, perm_bijective tableIP_perm, perm_bijective tableFP_perm,
    perm_bijective tableP_perm⟩

/-- Settles O32: the tables give that IP undoes FP, and since IP is one to one FP then undoes IP. -/
theorem finalPermutationInvertsInitial : Obligations.FinalPermutationInvertsInitial := by
  have hIF : Function.LeftInverse permIP permFP := perm_leftInverse tableIP_perm rfl tableFP_tableIP
  have hFI : Function.RightInverse permIP permFP :=
    hIF.rightInverse_of_injective (perm_injective tableIP_perm)
  refine ⟨fun v => ⟨hFI v, hIF v⟩, fun i hlow hhigh => ?_⟩
  rw [tableFP_tableIP (i - 1) (by omega)]
  omega

/-! ## The groups of E -/

/-- Bit j of group s, counted from the top, is bit 6s + j of the whole value (R142). -/
theorem sboxGroup_getMsbD (x : Subkey) {s j : Nat} (hs : s < 8) (hj : j < 6) :
    (sboxGroup x s).getMsbD j = x.getMsbD (6 * s + j) := by
  have hpos : 42 - 6 * s + (6 - 1 - j) = 48 - 1 - (6 * s + j) := by omega
  simp only [sboxGroup, BitVec.getMsbD, BitVec.getLsbD_extractLsb', hpos]
  simp [hj, show 6 - 1 - j < 6 by omega, show 6 * s + j < 48 by omega]

/-- Entry j of row s of E is 4s + j, with 0 standing for 32 and 33 for 1 (R107). -/
theorem tableE_getD : ∀ s < 8, ∀ j < 6, tableE.getD (6 * s + j) 0 =
    if 4 * s + j = 0 then 32 else if 4 * s + j = 33 then 1 else 4 * s + j := by decide

theorem tableE_count : ∀ i < 33, 1 ≤ i → tableE.count i =
    if i ∈ [32, 1, 4, 5, 8, 9, 12, 13, 16, 17, 20, 21, 24, 25, 28, 29] then 2 else 1 := by decide

/-- Settles O34: the groups by `sboxGroup_getMsbD` and the rows of E, the counts by evaluating the table. -/
theorem expansionGroups : Obligations.ExpansionGroups := by
  refine ⟨fun v s j hs hj => ⟨sboxGroup_getMsbD _ hs hj, ?_⟩, fun i hlow hhigh => tableE_count i (by omega) hlow⟩
  have hpos : 6 * s + j < 48 := by omega
  rw [← tableE_getD s hs j hj]
  exact perm_getMsbD_getD tableE v rfl hpos

end Sys2Proof.Machine
end

section
/-! PROOFS of the family 41_key_schedule.md: `rol_28` is a circular rotation (R121), so C_r and D_r are C_0 and D_0
rotated by the sum of the first r shifts (R123, R124); the subkeys depend on PC-1 of the key only (R129); and GENKEYS
lays them out in round order (R128). -/

namespace Sys2Proof.Machine

/-! ## Rotation (R121) -/

/-- Bit i of a rotated half, counted from the top, is the bit n places below it, around the end of the half. -/
theorem rol28_getMsbD (v : KeyHalf) (n : Nat) {i : Nat} (hi : i < 28) :
    (rol28 v n).getMsbD i = v.getMsbD ((i + n) % 28) := by
  rw [rol28, BitVec.getMsbD_rotateLeft, Nat.add_comm i n]
  simp [hi]

/-- Rotations add up. -/
theorem rol28_rol28 (v : KeyHalf) (m n : Nat) : rol28 (rol28 v m) n = rol28 v (m + n) := by
  refine BitVec.eq_of_getMsbD_eq fun i hi => ?_
  rw [rol28_getMsbD _ n hi, rol28_getMsbD v m (Nat.mod_lt _ (by omega)), rol28_getMsbD v (m + n) hi,
    show ((i + n) % 28 + m) % 28 = (i + (m + n)) % 28 by omega]

/-- A rotation by a whole turn changes nothing. -/
theorem rol28_of_dvd (v : KeyHalf) {n : Nat} (hn : 28 ∣ n) : rol28 v n = v := by
  refine BitVec.eq_of_getMsbD_eq fun i hi => ?_
  rw [rol28_getMsbD v n hi, show (i + n) % 28 = i by omega]

@[simp] theorem rol28_zero (n : Nat) : rol28 0 n = 0 := by
  refine BitVec.eq_of_getMsbD_eq fun i hi => ?_
  rw [rol28_getMsbD 0 n hi]
  simp

/-- The lower m bits put above the upper n bits are the rotation by n: the n bits that leave the top re-enter at the
bottom. -/
theorem rol28_eq_append (v : KeyHalf) {m n : Nat} (hmn : m + n = 28) :
    rol28 v n = (v.extractLsb' 0 m ++ v.extractLsb' m n).cast hmn := by
  refine BitVec.eq_of_getMsbD_eq fun i hi => ?_
  rw [rol28_getMsbD v n hi, BitVec.getMsbD_cast, BitVec.getMsbD_append]
  by_cases him : i < m
  · rw [if_neg (by omega), BitVec.getMsbD_extractLsb', Nat.mod_eq_of_lt (by omega),
      show 28 - (0 + m - i) = i + n by omega]
    simp [him, show m ≤ 28 + i by omega]
  · rw [if_pos (by omega), BitVec.getMsbD_extractLsb', show 28 - (m + n - (i - m)) = (i + n) % 28 by omega]
    simp [show i - m < n by omega, show m + n - (i - m) ≤ 28 by omega]

/-- Settles O35: the slices by `rol28_eq_append`, the worked example by evaluation. -/
theorem rotationIsCircular : Obligations.RotationIsCircular :=
  ⟨fun v => rol28_eq_append v rfl, fun v => rol28_eq_append v rfl, by decide⟩

/-! ## The halves of the schedule (R122 to R124) -/

/-- The shifts of rounds 1 to r together. -/
def shiftSum (r : Nat) : Nat := ((List.range' 1 r).map shiftOf).sum

theorem shiftSum_succ (r : Nat) : shiftSum (r + 1) = shiftSum r + shiftOf (r + 1) := by
  simp [shiftSum, List.range'_concat, Nat.add_comm 1 r]

theorem shiftSum_sixteen : shiftSum 16 = 28 := by decide

/-- A half that every round rotates by its shift is, after r rounds, the first one rotated by the shifts together. -/
theorem eq_rol28_shiftSum {half : Nat → KeyHalf} (hround : ∀ r, half (r + 1) = rol28 (half r) (shiftOf (r + 1)))
    (r : Nat) : half r = rol28 (half 0) (shiftSum r) := by
  induction r with
  | zero => exact (rol28_of_dvd _ (Nat.dvd_zero 28)).symm
  | succ r ih => rw [hround, ih, rol28_rol28, shiftSum_succ]

theorem scheduleC_eq_rol28 (key : Block) (r : Nat) : scheduleC key r = rol28 (splitC (permPC1 key)) (shiftSum r) :=
  eq_rol28_shiftSum (fun _ => rfl) r

theorem scheduleD_eq_rol28 (key : Block) (r : Nat) : scheduleD key r = rol28 (splitD (permPC1 key)) (shiftSum r) :=
  eq_rol28_shiftSum (fun _ => rfl) r

/-- Settles O36: the shifts are evaluated; KEYGEN leaves C_16 and D_16 (`keygenRounds_halves`), which are C_0 and D_0
rotated by 28. -/
theorem shiftScheduleRestoresHalves : Obligations.ShiftScheduleRestoresHalves := by
  refine ⟨by decide, shiftSum_sixteen, fun h key => ?_⟩
  obtain ⟨hc, hd⟩ := h.keygenRounds_halves key 16
  have hturn : 28 ∣ shiftSum 16 := by rw [shiftSum_sixteen]
  constructor
  · calc (h.keygen key).c
      _ = scheduleC key 16 := hc
      _ = splitC (permPC1 key) := by rw [scheduleC_eq_rol28, rol28_of_dvd _ hturn]
  · calc (h.keygen key).d
      _ = scheduleD key 16 := hd
      _ = splitD (permPC1 key) := by rw [scheduleD_eq_rol28, rol28_of_dvd _ hturn]

/-! ## The subkeys (R124 to R126, R129) -/

theorem roundKeys_getD (key : Block) {j : Nat} (hj : j < 16) : (roundKeys key).getD j 0 = roundKey key (j + 1) := by
  have hentry (rkf : Vector Subkey 16) : rkf.getD j 0 = rkf[j] := by simp [Vector.getD, hj]
  rw [hentry, roundKeys, Vector.getElem_ofFn]

/-- Settles O37: the rotations are the recursion of `scheduleC` and `scheduleD`, RKF is `Hidden.keygen_rkf`. -/
theorem keygenWritesEverySubkey : Obligations.KeygenWritesEverySubkey := by
  intro h key r hlow hhigh
  obtain ⟨j, rfl⟩ : ∃ j, r = j + 1 := ⟨r - 1, by omega⟩
  refine ⟨rfl, rfl, ?_⟩
  rw [Hidden.keygen_rkf, Nat.add_sub_cancel, roundKeys_getD key (by omega), roundKey]

/-- PERM looks only at the bits its table lists. -/
theorem perm_congr {n m : Nat} {T : List Nat} {v w : BitVec n} (h : ∀ i ∈ T, desBit v i = desBit w i) :
    perm m T v = perm m T w := by
  rw [perm, perm, List.map_congr_left h]

theorem perm_zero {n m : Nat} {T : List Nat} (hm : T.length = m) : perm m T (0 : BitVec n) = 0 := by
  refine BitVec.eq_of_getMsbD_eq fun i hi => ?_
  rw [perm_getMsbD_getD T 0 hm hi]
  simp

/-- PC-1 lists bits of the key, none of them a parity bit (R120). -/
theorem tablePC1_not_parity : ∀ i ∈ tablePC1, 1 ≤ i ∧ i ≤ 64 ∧ i % 8 ≠ 0 := by decide

/-- The subkeys depend on PC-1 of the key only. -/
theorem roundKeys_congr {k k' : Block} (h : permPC1 k = permPC1 k') : roundKeys k = roundKeys k' := by
  simp only [roundKeys, roundKey, scheduleC_eq_rol28, scheduleD_eq_rol28, h]

/-- Every subkey of the all-zero key is 0. -/
theorem roundKey_zero (r : Nat) : roundKey 0 r = 0 := by
  have hPC1 : permPC1 0 = 0 := perm_zero rfl
  have hC : scheduleC 0 r = 0 := by rw [scheduleC_eq_rol28, hPC1]; exact rol28_zero _
  have hD : scheduleD 0 r = 0 := by rw [scheduleD_eq_rol28, hPC1]; exact rol28_zero _
  rw [roundKey, hC, hD]
  exact perm_zero rfl

theorem roundKeys_zero : roundKeys 0 = Vector.replicate 16 0 := by
  ext j hj : 1
  rw [roundKeys, Vector.getElem_ofFn, roundKey_zero, Vector.getElem_replicate]

/-- Settles O38: RKF is a function of the key (`Hidden.keygen_rkf`), and of PC-1 of it, which drops the parity bits. -/
theorem scheduleLaws : Obligations.ScheduleLaws := by
  refine ⟨fun h h' key => ?_, fun h => ?_, fun h k k' hbits => ?_⟩
  · rw [Hidden.keygen_rkf, Hidden.keygen_rkf]
  · rw [Hidden.keygen_rkf, roundKeys_zero]
  · have hPC1 : permPC1 k = permPC1 k' := perm_congr fun i hi => by
      obtain ⟨hlow, hhigh, hparity⟩ := tablePC1_not_parity i hi
      exact hbits i hlow hhigh hparity
    rw [Hidden.keygen_rkf, Hidden.keygen_rkf, roundKeys_congr hPC1]

/-! ## GENKEYS (R128) -/

/-- The result bytes of GENKEYS under a key: the sixteen subkeys in round order. -/
def subkeyBytes (key : Block) : List Byte := (List.range 16).flatMap fun j => bytesOf 6 (roundKey key (j + 1))

theorem rkfBytes_roundKeys (key : Block) : rkfBytes (roundKeys key) = subkeyBytes key := by
  rw [rkfBytes, roundKeys, Vector.toList_ofFn, subkeyBytes, List.ofFn_eq_map, ← List.map_coe_finRange_eq_range,
    List.flatMap_map, List.flatMap_map]

theorem subkeyBytes_length (key : Block) : (subkeyBytes key).length = 96 := by
  simp [subkeyBytes, List.length_flatMap]

theorem subkeyBytes_zero : subkeyBytes 0 = List.replicate 96 0 := by
  simp only [subkeyBytes, roundKey_zero]
  decide

/-- GENKEYS' body under an 8-byte key. -/
theorem bodyOf_genkeys_ok {s : State} {k : List Byte} (hk : s.operand .opb = some k) (hlen : k.length = 8) :
    bodyOf .genkeys s = .ok (subkeyBytes (be 64 k)) := by
  rw [bodyOf, genkeysBody, requireLen_ok.mpr ⟨hk, hlen⟩, withOne_ok, Hidden.keygen_rkf, rkfBytes_roundKeys]

/-- GENKEYS' body without an 8-byte key. -/
theorem bodyOf_genkeys_error {s : State} (h : InvalidArguments .genkeys (s.operand .opa) (s.operand .opb)) :
    bodyOf .genkeys s = .error .invalidArgument := by
  rw [bodyOf, genkeysBody, requireLen_error.mpr ⟨h, rfl⟩, withOne_error]

theorem genkeys_anyOverCapacity (s : State) : (usedOperands .genkeys).any s.overCapacity = s.overCapacity .opb :=
  Bool.or_false _

/-- GENKEYS under an 8-byte key completes with the sixteen subkeys. -/
theorem exec_genkeys_complete {s : State} {k : List Byte} (hk : s.operand .opb = some k) (hlen : k.length = 8) :
    ∃ t, exec .genkeys s = .next t ∧ Completed s t (subkeyBytes (be 64 k)) := by
  have hcap : s.overCapacity .opb = false :=
    State.overCapacity_of_length hk (by have := Config.maxLen_pos; omega)
  exact ⟨_, exec_complete ((genkeys_anyOverCapacity s).trans hcap) (bodyOf_genkeys_ok hk hlen)⟩

/-- Settles O28: an 8-byte key by `exec_genkeys_complete`, an error by the operand checks, the worked example by
evaluation. -/
theorem genkeysMeetsItsRule : Obligations.GenkeysMeetsItsRule := by
  refine ⟨decode_encode .genkeys, fun s k hk hlen => ?_, fun s hcap hbad => ?_, fun s hcap => ?_, fun s hzero => ?_,
    by decide +kernel, by decide +kernel⟩
  · obtain ⟨t, hexec, hdone⟩ := exec_genkeys_complete hk hlen
    have hlen96 : t.res.len.toNat = 96 := hdone.len.trans (subkeyBytes_length _)
    exact ⟨t, hexec, hdone, BitVec.eq_of_toNat_eq hlen96⟩
  · exact ⟨_, exec_raise ((genkeys_anyOverCapacity s).trans hcap) (bodyOf_genkeys_error hbad)⟩
  · exact ⟨_, exec_overCapacity ((genkeys_anyOverCapacity s).trans hcap)⟩
  · have hbe : be 64 (List.replicate 8 0) = 0 := by decide
    rw [← subkeyBytes_zero, ← hbe]
    exact exec_genkeys_complete hzero List.length_replicate

end Sys2Proof.Machine
end

section
/-! PROOFS of the family 42_substitution.md: what a command that uses one operand of a fixed length does, for SBOX
(R145), and the lanes of SUBST (R144). -/

namespace Sys2Proof.Machine

/-! ## Commands that use one operand of a fixed length -/

section
variable {i : Instr} {b : OperandBuf} {n : Nat} {f : List Byte → List Byte} {s : State}

theorem anyOverCapacity_of_singleton (hused : usedOperands i = [b]) :
    (usedOperands i).any s.overCapacity = s.overCapacity b := by
  rw [hused]
  exact Bool.or_false _

/-- Within the capacity and of the length it must have, the operand's bytes give the result. -/
theorem exec_oneOperand_complete (hused : usedOperands i = [b])
    (hbody : bodyOf i s = withOne (requireLen n (s.operand b)) fun x => .ok (f x)) (hn : n ≤ 96) {x : List Byte}
    (hx : s.operand b = some x) (hlen : x.length = n) : ∃ t, exec i s = .next t ∧ Completed s t (f x) := by
  have hcap : s.overCapacity b = false :=
    State.overCapacity_of_length hx (by have := Config.maxLen_pos; omega)
  refine ⟨_, exec_complete ((anyOverCapacity_of_singleton hused).trans hcap) ?_⟩
  rw [hbody, requireLen_ok.mpr ⟨hx, hlen⟩, withOne_ok]

/-- Within the capacity, an operand that is absent or of another length is INVALID_ARGUMENT. -/
theorem exec_oneOperand_invalidArgument (hused : usedOperands i = [b])
    (hbody : bodyOf i s = withOne (requireLen n (s.operand b)) fun x => .ok (f x)) (hcap : s.overCapacity b = false)
    (hbad : s.operand b = none ∨ ∃ x, s.operand b = some x ∧ x.length ≠ n) :
    ∃ t, exec i s = .next t ∧ Raised s t .invalidArgument := by
  refine ⟨_, exec_raise ((anyOverCapacity_of_singleton hused).trans hcap) ?_⟩
  rw [hbody, requireLen_error.mpr ⟨hbad, rfl⟩, withOne_error]

theorem exec_oneOperand_unsupported (hused : usedOperands i = [b]) (hcap : s.overCapacity b = true) :
    ∃ t, exec i s = .next t ∧ Raised s t .unsupported :=
  ⟨_, exec_overCapacity ((anyOverCapacity_of_singleton hused).trans hcap)⟩

end

/-! ## SBOX (R145) -/

/-- SBOX's body is SUBST of a 6-byte OPA. -/
theorem bodyOf_sbox (s : State) :
    bodyOf .sbox s = withOne (requireLen 6 (s.operand .opa)) fun x => .ok (bytesOf 4 (subst (be 48 x))) := rfl

/-- Settles O24: SBOX uses one operand of a fixed length; its word by `decode_encode`, its examples by evaluation. -/
theorem sboxMeetsItsRule : Obligations.SboxMeetsItsRule :=
  ⟨decode_encode .sbox, fun s _ hx hlen => exec_oneOperand_complete rfl (bodyOf_sbox s) (by omega) hx hlen,
    fun s hcap hbad => exec_oneOperand_invalidArgument rfl (bodyOf_sbox s) hcap hbad,
    fun _ hcap => exec_oneOperand_unsupported rfl hcap, by decide, by decide⟩

/-! ## Lane s writes nibble s (R143) -/

/-- Nibble s of lane j's result at its place: the result if s is j, else 0. -/
theorem substNibble_extractLsb' (x : Subkey) {j s : Nat} (hj : j < 8) (hs : s < 8) :
    (substNibble x j).extractLsb' (28 - 4 * s) 4 = if s = j then sboxLane j (sboxGroup x j) else 0 := by
  refine BitVec.eq_of_getLsbD_eq fun k hk => ?_
  rw [substNibble, BitVec.getLsbD_extractLsb', BitVec.getLsbD_shiftLeft, BitVec.getLsbD_setWidth]
  rcases Nat.lt_trichotomy s j with hlt | rfl | hgt
  · rw [if_neg (by omega), BitVec.getLsbD_of_ge _ _ (by omega)]
    simp
  · simp [hk, show 28 - 4 * s + k < 32 by omega, show k < 32 by omega]
  · rw [if_neg (by omega)]
    simp [show 28 - 4 * s + k < 28 - 4 * j by omega]

/-- Nibble s of SUBST is lane s of group s. -/
theorem subst_extractLsb' (x : Subkey) {s : Nat} (hs : s < 8) :
    (subst x).extractLsb' (28 - 4 * s) 4 = sboxLane s (sboxGroup x s) := by
  have hor (v w : Half) : (v ||| w).extractLsb' (28 - 4 * s) 4 =
      v.extractLsb' (28 - 4 * s) 4 ||| w.extractLsb' (28 - 4 * s) 4 := BitVec.extractLsb'_or
  simp only [subst, hor, substNibble_extractLsb' x _ hs, Nat.reduceLT]
  interval_cases s <;> simp

/-! ## Four preimages in every lane (R144) -/

/-- Every row of every box is a permutation of 0..15 (R141). -/
theorem sboxLookup_row_perm : ∀ s < 8, ∀ row < 4,
    ((List.range 16).map (sboxLookup (s + 1) row)).Perm ((List.range 16).map (BitVec.ofNat 4)) := by decide

/-- Every value stands at one column of every row. -/
theorem countP_sboxLookup_row {s row : Nat} (hs : s < 8) (hrow : row < 4) (y : BitVec 4) :
    (List.range 16).countP (fun col => sboxLookup (s + 1) row col == y) = 1 := by
  have honce : ∀ v : BitVec 4, ((List.range 16).map (BitVec.ofNat 4)).count v = 1 := by decide
  calc (List.range 16).countP (fun col => sboxLookup (s + 1) row col == y)
    _ = ((List.range 16).map (sboxLookup (s + 1) row)).count y := by rw [List.count, List.countP_map]; rfl
    _ = ((List.range 16).map (BitVec.ofNat 4)).count y := (sboxLookup_row_perm s hs row hrow).count_eq y
    _ = 1 := honce y

/-- The 64 groups name each row and column once (R142). -/
theorem groups_perm : ((List.range 64).map fun g => (sboxRow (BitVec.ofNat 6 g), sboxCol (BitVec.ofNat 6 g))).Perm
    (List.range 4 ×ˢ List.range 16) := by decide

/-- A lane maps one group of each of the four rows to each value (R144). -/
theorem countP_sboxLane {s : Nat} (hs : s < 8) (y : BitVec 4) :
    (List.range 64).countP (fun g => sboxLane s (BitVec.ofNat 6 g) == y) = 4 := by
  have honce : ∀ row ∈ List.range 4, (List.range 16).countP (fun col => sboxLookup (s + 1) row col == y) = 1 :=
    fun row hrow => countP_sboxLookup_row hs (List.mem_range.mp hrow) y
  calc (List.range 64).countP (fun g => sboxLane s (BitVec.ofNat 6 g) == y)
    _ = (List.range 4 ×ˢ List.range 16).countP (fun p => sboxLookup (s + 1) p.1 p.2 == y) := by
      rw [← groups_perm.countP_eq, List.countP_map]
      rfl
    _ = ((List.range 4).map fun row => (List.range 16).countP fun col => sboxLookup (s + 1) row col == y).sum := by
      simp only [SProd.sprod, List.product, List.countP_flatMap, Function.comp_def, List.countP_map]
    _ = 4 := by rw [List.map_congr_left honce]; rfl

/-- Settles O39: nibble s is lane s of group s (`subst_extractLsb'`), each lane is four permutations, and two groups of
lane 0, in rows 0 and 2, map to 4. -/
theorem substitutionLanes : Obligations.SubstitutionLanes :=
  ⟨fun x y s hs h => by rw [subst_extractLsb' x hs, subst_extractLsb' y hs, h], fun _ hs y => countP_sboxLane hs y,
    0x080000000000#48, 0x800000000000#48, by decide, by decide⟩

end Sys2Proof.Machine
end

section
/-! PROOFS of the family 43_feistel.md: what a command that checks two operands does, for FEISTEL (R162), and F under
complement of its operands (R164). -/

namespace Sys2Proof.Machine

/-! ## Commands that check two operands -/

/-- Two checks that can fail with `e` only, one of which does (R213). -/
theorem withTwo_error {a b : Except Err (List Byte)} {f : List Byte → List Byte → Except Err (List Byte)} {e : Err}
    (ha : ∀ e', a = .error e' → e' = e) (hfail : a = .error e ∨ b = .error e) : withTwo a b f = .error e := by
  cases a with
  | error e' => rw [ha e' rfl, withTwo, withOne_error]
  | ok x =>
    have hb : b = .error e := hfail.resolve_left nofun
    rw [withTwo, withOne_ok, hb, withOne_error]

section
variable {i : Instr} {a b : OperandBuf} {checkA checkB : Except Err (List Byte)}
  {f : List Byte → List Byte → Except Err (List Byte)} {s : State}

theorem anyOverCapacity_of_pair (hused : usedOperands i = [a, b]) :
    (usedOperands i).any s.overCapacity = (s.overCapacity a || s.overCapacity b) := by
  rw [hused, List.any_cons, List.any_cons, List.any_nil, Bool.or_false]

/-- Within the capacity, operands that pass their checks give the result. -/
theorem exec_twoOperands_complete (hused : usedOperands i = [a, b]) (hbody : bodyOf i s = withTwo checkA checkB f)
    (ha : s.overCapacity a = false) (hb : s.overCapacity b = false) {x y r : List Byte} (hx : checkA = .ok x)
    (hy : checkB = .ok y) (hr : f x y = .ok r) : ∃ t, exec i s = .next t ∧ Completed s t r := by
  refine ⟨_, exec_complete (by rw [anyOverCapacity_of_pair hused, ha, hb, Bool.or_false]) ?_⟩
  rw [hbody, hx, hy, withTwo, withOne_ok, withOne_ok, hr]

/-- Within the capacity, an operand that fails its check is INVALID_ARGUMENT. -/
theorem exec_twoOperands_invalidArgument (hused : usedOperands i = [a, b])
    (hbody : bodyOf i s = withTwo checkA checkB f) (ha : s.overCapacity a = false) (hb : s.overCapacity b = false)
    (hcheck : ∀ e, checkA = .error e → e = .invalidArgument)
    (hfail : checkA = .error .invalidArgument ∨ checkB = .error .invalidArgument) :
    ∃ t, exec i s = .next t ∧ Raised s t .invalidArgument :=
  ⟨_, exec_raise (by rw [anyOverCapacity_of_pair hused, ha, hb, Bool.or_false])
    (hbody.trans (withTwo_error hcheck hfail))⟩

theorem exec_twoOperands_unsupported (hused : usedOperands i = [a, b])
    (hcap : s.overCapacity a = true ∨ s.overCapacity b = true) :
    ∃ t, exec i s = .next t ∧ Raised s t .unsupported :=
  ⟨_, exec_overCapacity (by rw [anyOverCapacity_of_pair hused, Bool.or_eq_true]; exact hcap)⟩

end

/-! ## FEISTEL (R162) -/

/-- FEISTEL's body is F of a 4-byte OPA and a 6-byte OPB. -/
theorem bodyOf_feistel (s : State) :
    bodyOf .feistel s = withTwo (requireLen 4 (s.operand .opa)) (requireLen 6 (s.operand .opb))
      fun x k => .ok (bytesOf 4 (feistelF (be 32 x) (be 48 k))) := rfl

/-- FEISTEL's argument errors are the failures of its two length checks. -/
theorem invalidArguments_feistel_iff (x k : Option (List Byte)) :
    InvalidArguments .feistel x k ↔
      requireLen 4 x = .error .invalidArgument ∨ requireLen 6 k = .error .invalidArgument := by
  rw [requireLen_error, requireLen_error, and_iff_left rfl, and_iff_left rfl, or_assoc, InvalidArguments]

/-- Settles O40: two evaluations of F. -/
theorem subkeysCollide : Obligations.SubkeysCollide :=
  ⟨by decide, by decide +kernel, by decide +kernel⟩

/-- Settles O25: FEISTEL checks two operands of fixed lengths; its word by `decode_encode`, its example is the first
subkey of `subkeysCollide`. -/
theorem feistelMeetsItsRule : Obligations.FeistelMeetsItsRule := by
  obtain ⟨-, hexample, -⟩ := subkeysCollide
  refine ⟨decode_encode .feistel, fun s x k hx hxlen hk hklen => ?_, fun s ha hb hbad => ?_,
    fun s hcap => exec_twoOperands_unsupported rfl hcap, hexample⟩
  · have hmax := Config.maxLen_pos
    exact exec_twoOperands_complete rfl (bodyOf_feistel s) (State.overCapacity_of_length hx (by omega))
      (State.overCapacity_of_length hk (by omega)) (requireLen_ok.mpr ⟨hx, hxlen⟩) (requireLen_ok.mpr ⟨hk, hklen⟩) rfl
  · exact exec_twoOperands_invalidArgument rfl (bodyOf_feistel s) ha hb (fun _ he => (requireLen_error.mp he).2)
      ((invalidArguments_feistel_iff _ _).mp hbad)

/-! ## Complement (R164) -/

/-- PERM with a table that lists bits of its input is a bit selection, so it commutes with complement. -/
theorem perm_not {n m : Nat} {T : List Nat} (hm : T.length = m) (hT : ∀ i ∈ T, 1 ≤ i ∧ i ≤ n) (v : BitVec n) :
    perm m T (~~~v) = ~~~(perm m T v) := by
  refine BitVec.eq_of_getMsbD_eq fun j hj => ?_
  have hjT : j < T.length := by omega
  have hbit : T[j] - 1 < n := by have := hT T[j] (List.getElem_mem hjT); omega
  rw [perm_getMsbD T _ hm hjT, BitVec.getMsbD_not, perm_getMsbD T v hm hjT, desBit, BitVec.getMsbD_not, desBit]
  simp [hj, hbit]

/-- E lists bits of a half (R106). -/
theorem tableE_range : ∀ i ∈ tableE, 1 ≤ i ∧ i ≤ 32 := by decide

theorem permE_not (r : Half) : permE (~~~r) = ~~~(permE r) := perm_not rfl tableE_range r

/-- Settles O41: E commutes with complement, and the two complements cancel in the exclusive-or. -/
theorem feistelComplement : Obligations.FeistelComplement := by
  intro r k
  rw [feistelF, permE_not, ← BitVec.not_xor_left, ← BitVec.not_xor_right, BitVec.not_not, feistelF]

end Sys2Proof.Machine
end

section
/-! PROOFS of the family 44_block_engine.md, part 1: the outcome of a word as a function of its operands (R208), and the
commands IPERM and FPERM (R192, R193). -/

namespace Sys2Proof.Machine

/-- Settles O23: `commandWrite_congr` for the two states with the write taken, which have the operands they had. -/
theorem outcomeIsAFunctionOfTheOperands : Obligations.OutcomeIsAFunctionOfTheOperands := by
  intro s t s' t' w restS restT hs ht hagree hs' ht'
  rw [step_cons hs] at hs'
  rw [step_cons ht] at ht'
  refine commandWrite_congr (fun i hi b hb => ?_) ht' hs'
  calc (s.popInput restS).operand b
    _ = s.operand b := State.operand_congr rfl rfl rfl b
    _ = t.operand b := hagree i hi b hb
    _ = (t.popInput restT).operand b := (State.operand_congr rfl rfl rfl b).symm

/-! ## IPERM and FPERM -/

theorem bytesOf_be_of_length {m : Nat} {bs : List Byte} (h : bs.length = m) : bytesOf m (be (8 * m) bs) = bs := by
  subst h
  exact bytesOf_be bs

/-- FP undoes IP (R105). -/
@[simp] theorem permFP_permIP (v : Block) : permFP (permIP v) = v := (finalPermutationInvertsInitial.1 v).1

/-- IP undoes FP (R105). -/
@[simp] theorem permIP_permFP (v : Block) : permIP (permFP v) = v := (finalPermutationInvertsInitial.1 v).2

/-- IPERM's body is IP of an 8-byte OPA. -/
theorem bodyOf_iperm (s : State) :
    bodyOf .iperm s = withOne (requireLen 8 (s.operand .opa)) fun x => .ok (bytesOf 8 (permIP (be 64 x))) := rfl

/-- FPERM's body is FP of an 8-byte OPA. -/
theorem bodyOf_fperm (s : State) :
    bodyOf .fperm s = withOne (requireLen 8 (s.operand .opa)) fun x => .ok (bytesOf 8 (permFP (be 64 x))) := rfl

theorem exec_iperm_complete {s : State} {x : List Byte} (hx : s.operand .opa = some x) (hlen : x.length = 8) :
    ∃ t, exec .iperm s = .next t ∧ Completed s t (bytesOf 8 (permIP (be 64 x))) :=
  exec_oneOperand_complete rfl (bodyOf_iperm s) (by omega) hx hlen

theorem exec_fperm_complete {s : State} {x : List Byte} (hx : s.operand .opa = some x) (hlen : x.length = 8) :
    ∃ t, exec .fperm s = .next t ∧ Completed s t (bytesOf 8 (permFP (be 64 x))) :=
  exec_oneOperand_complete rfl (bodyOf_fperm s) (by omega) hx hlen

/-- Settles O26: IPERM uses one operand of a fixed length; its word by `decode_encode`, 0 by `perm_zero`, its other
examples by evaluation. -/
theorem ipermMeetsItsRule : Obligations.IpermMeetsItsRule :=
  ⟨decode_encode .iperm, fun _ _ => exec_iperm_complete,
    fun s hcap hbad => exec_oneOperand_invalidArgument rfl (bodyOf_iperm s) hcap hbad,
    fun _ hcap => exec_oneOperand_unsupported rfl hcap, perm_zero rfl, by decide +kernel, by decide +kernel,
    by decide +kernel⟩

/-- FPERM of the bytes of IP of a block gives the block back (R105, R193). -/
theorem exec_fperm_of_iperm {s t u : State} {x : List Byte} (hx : s.operand .opa = some x) (hlen : x.length = 8)
    (hexec : exec .iperm s = .next t) (hu : u.operand .opa = some t.result) :
    ∃ v, exec .fperm u = .next v ∧ Completed u v x := by
  obtain ⟨t', hexec', hdone⟩ := exec_iperm_complete hx hlen
  cases hexec.symm.trans hexec'
  rw [hdone.result] at hu
  have hback : bytesOf 8 (permFP (be 64 (bytesOf 8 (permIP (be 64 x))))) = x := by
    rw [be_bytesOf 8, permFP_permIP, bytesOf_be_of_length hlen]
  exact hback ▸ exec_fperm_complete hu (bytesOf_length 8 _)

/-- Settles O27: FPERM uses one operand of a fixed length; `exec_fperm_of_iperm` gives the inverse of IPERM. -/
theorem fpermMeetsItsRule : Obligations.FpermMeetsItsRule :=
  ⟨decode_encode .fperm, fun _ _ => exec_fperm_complete,
    fun s hcap hbad => exec_oneOperand_invalidArgument rfl (bodyOf_fperm s) hcap hbad,
    fun _ hcap => exec_oneOperand_unsupported rfl hcap,
    fun _ _ _ hx hlen hexec _ => exec_fperm_of_iperm hx hlen hexec, by decide +kernel, by decide +kernel⟩

end Sys2Proof.Machine
end

section
/-! PROOFS of the family 44_block_engine.md, part 2: one block. BLOCK is FP of the swapped result of sixteen rounds on
the halves of IP, in the order of a list of subkeys (`blockWith`). A Feistel round undoes itself behind a swap, so BLOCK
with the list reversed undoes BLOCK (R178), and with equal subkeys BLOCK undoes itself (R200). -/

namespace Sys2Proof.Machine

/-! ## The round loop (R175) and the frame of a block -/

/-- n turns of the round loop count n rounds, as long as RND does not pass 16. -/
theorem Hidden.rounds_rnd (n : Nat) (h : Hidden) (hn : h.rnd.val + n ≤ 16) :
    (Hidden.rounds n h).rnd.val = h.rnd.val + n := by
  induction n generalizing h with
  | zero => rfl
  | succ n ih =>
    have hlt : h.rnd.val < 16 := by omega
    have hnext : h.round.rnd.val = h.rnd.val + 1 := rndNext_val hlt
    rw [Hidden.rounds_succ h n hlt, ih h.round (by omega), hnext]
    omega

/-- Turns of the round loop add up. -/
theorem Hidden.rounds_add (m n : Nat) (h : Hidden) :
    Hidden.rounds (m + n) h = Hidden.rounds n (Hidden.rounds m h) := by
  induction m generalizing h with
  | zero => rw [Nat.zero_add, Hidden.rounds]
  | succ m ih =>
    by_cases hlt : h.rnd.val < 16
    · rw [Nat.add_right_comm, Hidden.rounds_succ h _ hlt, Hidden.rounds_succ h _ hlt, ih]
    · rw [Hidden.rounds_done h _ hlt, Hidden.rounds_done h _ hlt, Hidden.rounds_done h _ hlt]

@[simp] theorem Hidden.block_c (h : Hidden) (b : Block) : (h.block b).1.c = h.c :=
  Hidden.block_keeps Hidden.c Hidden.round_c Hidden.loadBlock_c Hidden.preOutput_c h b
@[simp] theorem Hidden.block_d (h : Hidden) (b : Block) : (h.block b).1.d = h.d :=
  Hidden.block_keeps Hidden.d Hidden.round_d Hidden.loadBlock_d Hidden.preOutput_d h b
@[simp] theorem Hidden.block_wbuf (h : Hidden) (b : Block) : (h.block b).1.wbuf = h.wbuf :=
  Hidden.block_keeps Hidden.wbuf Hidden.round_wbuf Hidden.loadBlock_wbuf Hidden.preOutput_wbuf h b

/-- Settles O43: the output is `Hidden.block_output`, and every register named is one that a block keeps. -/
theorem blockStepComputesTheCipher : Obligations.BlockStepComputesTheCipher := by
  intro h b
  refine ⟨h.block_output b, ?_, h.block_rkf b, h.block_c b, h.block_d b, h.block_wbuf b, h.block_dir b, h.block_blk b,
    h.block_nblk b⟩
  rw [Hidden.block_snd, Hidden.block_fst, Hidden.preOutput_pre]

/-- L_16 and R_16 of the canonical block, by evaluation of the rounds on the pair (the trace of R175). -/
theorem canonical_rounds :
    (List.range' 0 16).foldl (fun p k => roundOn (subkeyOf (roundKeys 0x133457799BBCDFF1#64) .encrypt k) p)
      (upperHalf (permIP 0x0123456789ABCDEF#64), lowerHalf (permIP 0x0123456789ABCDEF#64)) =
    (0x43423234#32, 0x0A4CD995#32) := by decide +kernel

/-- KEYGEN does not write DIR. -/
@[simp] theorem Hidden.keygen_dir (key : Block) (h : Hidden) : (h.keygen key).dir = h.dir := by
  have hround (n : Nat) : (h.keygenRounds key n).dir = h.dir := by
    induction n with
    | zero => rfl
    | succ n ih => rw [Hidden.keygenRounds_succ, Hidden.keygenRound_dir, ih]
  exact hround 16

/-- Settles O42: RND counts the turns (`rounds_rnd`), so turns past the sixteenth do nothing; the trace is the canonical
block's rounds under the subkeys KEYGEN leaves. -/
theorem sixteenRoundsPerBlock : Obligations.SixteenRoundsPerBlock := by
  have hcount (h : Hidden) (b : Block) {n : Nat} (hn : n ≤ 16) : (Hidden.rounds n (h.loadBlock b)).rnd.val = n :=
    (Hidden.rounds_rnd n _ (by rw [Hidden.loadBlock_rnd]; exact (Nat.zero_add n).trans_le hn)).trans (Nat.zero_add n)
  refine ⟨fun h b n => hcount h b, fun h b n hn => ?_, fun h hdir => ?_⟩
  · obtain ⟨k, rfl⟩ := Nat.exists_eq_add_of_le hn
    have hdone : ¬ (Hidden.rounds 16 (h.loadBlock b)).rnd.val < 16 := by rw [hcount h b (Nat.le_refl 16)]; decide
    rw [Hidden.rounds_add, Hidden.rounds_done _ k hdone]
  · have htrace := Hidden.rounds_halves 16 ((h.keygen 0x133457799BBCDFF1#64).loadBlock 0x0123456789ABCDEF#64)
      (Nat.le_refl _)
    rw [Hidden.loadBlock_rkf, Hidden.loadBlock_dir, Hidden.loadBlock_rnd, Hidden.loadBlock_l, Hidden.loadBlock_r,
      Hidden.keygen_rkf, Hidden.keygen_dir, hdir] at htrace
    exact Prod.mk.inj (htrace.trans canonical_rounds)

/-! ## BLOCK with a list of subkeys -/

/-- Rounds with the subkeys of a list, in its order, on a pair of halves (R173). -/
def runRounds (ks : List Subkey) (p : Half × Half) : Half × Half := ks.foldl (fun p k => roundOn k p) p

@[simp] theorem runRounds_cons (k : Subkey) (ks : List Subkey) (p : Half × Half) :
    runRounds (k :: ks) p = runRounds ks (roundOn k p) := rfl

/-- A round undoes itself behind a swap. -/
theorem roundOn_swap_roundOn (k : Subkey) (p : Half × Half) : roundOn k (roundOn k p).swap = p.swap := by
  obtain ⟨l, r⟩ := p
  simp only [roundOn, Prod.swap_prod_mk, BitVec.xor_assoc, BitVec.xor_self, BitVec.xor_zero]

/-- So rounds undo themselves behind a swap, with the subkeys in the reverse order. -/
theorem runRounds_reverse_swap (ks : List Subkey) (p : Half × Half) :
    runRounds ks.reverse (runRounds ks p).swap = p.swap := by
  induction ks generalizing p with
  | nil => rfl
  | cons k ks ih =>
    calc runRounds (k :: ks).reverse (runRounds (k :: ks) p).swap
      _ = roundOn k (runRounds ks.reverse (runRounds ks (roundOn k p)).swap) := by
        rw [List.reverse_cons, runRounds, List.foldl_append]
        rfl
      _ = p.swap := by rw [ih, roundOn_swap_roundOn]

/-- The two halves of a block, as the pair that the rounds work on. -/
def halves (x : Block) : Half × Half := (upperHalf x, lowerHalf x)

/-- The block of a pair of halves. -/
def joinPair (p : Half × Half) : Block := joinHalves p.1 p.2

@[simp] theorem halves_joinPair (p : Half × Half) : halves (joinPair p) = p := by
  rw [halves, joinPair, upperHalf_joinHalves, lowerHalf_joinHalves]

@[simp] theorem joinPair_halves (x : Block) : joinPair (halves x) = x := joinHalves_halves x

/-- BLOCK with the subkeys of a list in its order (R174). -/
def blockWith (ks : List Subkey) (b : Block) : Block := permFP (joinPair (runRounds ks (halves (permIP b))).swap)

/-- The subkeys of a block in the order its rounds use them (R172). -/
def subkeysOf (rkf : Vector Subkey 16) (dir : Dir) : List Subkey := (List.range 16).map (subkeyOf rkf dir)

theorem blockOf_eq_blockWith (rkf : Vector Subkey 16) (dir : Dir) (b : Block) :
    blockOf rkf dir b = blockWith (subkeysOf rkf dir) b := by
  rw [blockWith, subkeysOf, runRounds, List.foldl_map]
  rfl

/-- DECRYPT uses ENCRYPT's subkeys in the reverse order (R172). -/
theorem subkeysOf_decrypt (rkf : Vector Subkey 16) : subkeysOf rkf .decrypt = (subkeysOf rkf .encrypt).reverse := rfl

/-- BLOCK with the subkeys reversed undoes BLOCK: FP, IP and the join cancel around rounds that undo themselves. -/
theorem blockWith_reverse_blockWith (ks : List Subkey) (b : Block) : blockWith ks.reverse (blockWith ks b) = b := by
  simp only [blockWith, permIP_permFP, halves_joinPair, runRounds_reverse_swap, Prod.swap_swap, joinPair_halves,
    permFP_permIP]

theorem blockOf_decrypt_encrypt (rkf : Vector Subkey 16) (b : Block) :
    blockOf rkf .decrypt (blockOf rkf .encrypt b) = b := by
  rw [blockOf_eq_blockWith, blockOf_eq_blockWith, subkeysOf_decrypt, blockWith_reverse_blockWith]

theorem blockOf_encrypt_decrypt (rkf : Vector Subkey 16) (b : Block) :
    blockOf rkf .encrypt (blockOf rkf .decrypt b) = b := by
  have h := blockWith_reverse_blockWith (subkeysOf rkf .decrypt) b
  rwa [subkeysOf_decrypt, List.reverse_reverse, ← subkeysOf_decrypt, ← blockOf_eq_blockWith,
    ← blockOf_eq_blockWith] at h

/-- Settles O44: on the registers BLOCK is `blockOf` of RKF and DIR, which the other direction undoes. -/
theorem blockInvertsItself : Obligations.BlockInvertsItself := by
  intro h h' b hrkf
  refine ⟨fun hdir hdir' => ?_, fun hdir hdir' => ?_⟩
  · rw [Hidden.block_output, Hidden.block_output, hrkf, hdir, hdir', blockOf_decrypt_encrypt]
  · rw [Hidden.block_output, Hidden.block_output, hrkf, hdir, hdir', blockOf_encrypt_decrypt]

/-! ## Equal subkeys (R200) -/

/-- With equal subkeys the reverse order is the same order, so BLOCK undoes itself. -/
theorem blockOf_encrypt_encrypt {rkf : Vector Subkey 16}
    (hequal : ∀ i j, i < 16 → j < 16 → rkf.getD i 0 = rkf.getD j 0) (b : Block) :
    blockOf rkf .encrypt (blockOf rkf .encrypt b) = b := by
  have hsame : subkeysOf rkf .encrypt = List.replicate 16 (rkf.getD 0 0) :=
    List.eq_replicate_iff.mpr ⟨by rw [subkeysOf, List.length_map, List.length_range], fun k hk => by
      obtain ⟨i, hi, rfl⟩ := List.mem_map.mp hk
      exact hequal i 0 (List.mem_range.mp hi) (by decide)⟩
  have h := blockWith_reverse_blockWith (subkeysOf rkf .encrypt) b
  rwa [hsame, List.reverse_replicate, ← hsame, ← blockOf_eq_blockWith, ← blockOf_eq_blockWith] at h

/-- The four weak keys of R200. -/
def weakKeyList : List Block :=
  [0x0101010101010101#64, 0xFEFEFEFEFEFEFEFE#64, 0xE0E0E0E0F1F1F1F1#64, 0x1F1F1F1F0E0E0E0E#64]

/-- PC-1 of a weak key, by evaluation: each half is all zeros or all ones. -/
theorem weakKeyList_permPC1 : weakKeyList.map permPC1 =
    [joinKey 0 0, joinKey (BitVec.allOnes 28) (BitVec.allOnes 28), joinKey (BitVec.allOnes 28) 0,
      joinKey 0 (BitVec.allOnes 28)] := by decide +kernel

/-- A half whose bits are all equal. -/
def Uniform (half : KeyHalf) : Prop := half = 0 ∨ half = BitVec.allOnes 28

theorem permPC1_of_weak {key : Block} (hkey : key ∈ weakKeyList) :
    ∃ c d, Uniform c ∧ Uniform d ∧ permPC1 key = joinKey c d := by
  have hmem := List.mem_map_of_mem (f := permPC1) hkey
  rw [weakKeyList_permPC1] at hmem
  simp only [List.mem_cons, List.not_mem_nil, or_false] at hmem
  rcases hmem with h | h | h | h
  · exact ⟨_, _, .inl rfl, .inl rfl, h⟩
  · exact ⟨_, _, .inr rfl, .inr rfl, h⟩
  · exact ⟨_, _, .inr rfl, .inl rfl, h⟩
  · exact ⟨_, _, .inl rfl, .inr rfl, h⟩

/-- Rotation keeps a half whose bits are all equal. -/
theorem rol28_of_uniform {half : KeyHalf} (hhalf : Uniform half) (n : Nat) : rol28 half n = half := by
  obtain rfl | rfl := hhalf
  · exact rol28_zero n
  · refine BitVec.eq_of_getMsbD_eq fun i hi => ?_
    rw [rol28_getMsbD _ n hi, BitVec.getMsbD_allOnes, BitVec.getMsbD_allOnes]
    simp [hi, Nat.mod_lt]

theorem splitC_joinKey (c d : KeyHalf) : splitC (joinKey c d) = c := BitVec.extractLsb'_append_eq_left

theorem splitD_joinKey (c d : KeyHalf) : splitD (joinKey c d) = d := BitVec.extractLsb'_append_eq_right

/-- So every subkey of a weak key is PC-2 of the same halves. -/
theorem roundKey_of_weak {key : Block} (hkey : key ∈ weakKeyList) (r : Nat) :
    roundKey key r = permPC2 (permPC1 key) := by
  obtain ⟨c, d, hc, hd, hPC1⟩ := permPC1_of_weak hkey
  rw [roundKey, scheduleC_eq_rol28, scheduleD_eq_rol28, hPC1, splitC_joinKey, splitD_joinKey, rol28_of_uniform hc,
    rol28_of_uniform hd]

theorem roundKeys_getD_of_weak {key : Block} (hkey : key ∈ weakKeyList) {i j : Nat} (hi : i < 16) (hj : j < 16) :
    (roundKeys key).getD i 0 = (roundKeys key).getD j 0 := by
  rw [roundKeys_getD key hi, roundKeys_getD key hj, roundKey_of_weak hkey, roundKey_of_weak hkey]

/-! ## Complement (R199) -/

theorem extractLsb'_not_of_le {w start len : Nat} (x : BitVec w) (hle : start + len ≤ w) :
    (~~~x).extractLsb' start len = ~~~(x.extractLsb' start len) := by
  refine BitVec.eq_of_getLsbD_eq fun i hi => ?_
  simp [hi, show start + i < w by omega]

theorem rol28_not (v : KeyHalf) (n : Nat) : rol28 (~~~v) n = ~~~(rol28 v n) := by
  refine BitVec.eq_of_getMsbD_eq fun i hi => ?_
  rw [rol28_getMsbD _ n hi, BitVec.getMsbD_not, BitVec.getMsbD_not, rol28_getMsbD v n hi]
  simp [hi, Nat.mod_lt]

theorem tablePC1_range : ∀ i ∈ tablePC1, 1 ≤ i ∧ i ≤ 64 := by decide

theorem tablePC2_range : ∀ i ∈ tablePC2, 1 ≤ i ∧ i ≤ 56 := by decide

theorem tableIP_range : ∀ i ∈ tableIP, 1 ≤ i ∧ i ≤ 64 := by decide

theorem tableFP_range : ∀ i ∈ tableFP, 1 ≤ i ∧ i ≤ 64 := by decide

/-- Every subkey of the complement of a key is the complement of the key's: each step of the schedule selects bits. -/
theorem roundKey_not (key : Block) (r : Nat) : roundKey (~~~key) r = ~~~(roundKey key r) := by
  have hPC1 : permPC1 (~~~key) = ~~~(permPC1 key) := perm_not rfl tablePC1_range key
  have hC : scheduleC (~~~key) r = ~~~(scheduleC key r) := by
    rw [scheduleC_eq_rol28, scheduleC_eq_rol28, hPC1, splitC, extractLsb'_not_of_le _ (by omega), rol28_not]
    rfl
  have hD : scheduleD (~~~key) r = ~~~(scheduleD key r) := by
    rw [scheduleD_eq_rol28, scheduleD_eq_rol28, hPC1, splitD, extractLsb'_not_of_le _ (by omega), rol28_not]
    rfl
  rw [roundKey, hC, hD, joinKey, ← BitVec.not_append]
  exact perm_not rfl tablePC2_range _

theorem roundKeys_getD_not (key : Block) {j : Nat} (hj : j < 16) :
    (roundKeys (~~~key)).getD j 0 = ~~~((roundKeys key).getD j 0) := by
  rw [roundKeys_getD _ hj, roundKeys_getD _ hj, roundKey_not]

theorem subkeysOf_roundKeys_not (key : Block) (dir : Dir) :
    subkeysOf (roundKeys (~~~key)) dir = (subkeysOf (roundKeys key) dir).map (~~~·) := by
  rw [subkeysOf, subkeysOf, List.map_map]
  refine List.map_congr_left fun k hk => ?_
  have hk16 : k < 16 := List.mem_range.mp hk
  rw [Function.comp_apply]
  cases dir with
  | encrypt => rw [subkeyOf, subkeyOf, roundKeys_getD_not key hk16]
  | decrypt => rw [subkeyOf, subkeyOf, roundKeys_getD_not key (by omega)]

/-- F of complemented operands (R164). -/
theorem feistelF_not (r : Half) (k : Subkey) : feistelF (~~~r) (~~~k) = feistelF r k := feistelComplement r k

/-- The complement of both halves. -/
def notPair (p : Half × Half) : Half × Half := (~~~p.1, ~~~p.2)

/-- A round on complemented halves with a complemented subkey gives complemented halves: F is the same (R164). -/
theorem roundOn_not (k : Subkey) (p : Half × Half) : roundOn (~~~k) (notPair p) = notPair (roundOn k p) := by
  simp only [roundOn, notPair, feistelF_not, BitVec.not_xor_left]

theorem runRounds_not (ks : List Subkey) (p : Half × Half) :
    runRounds (ks.map (~~~·)) (notPair p) = notPair (runRounds ks p) := by
  induction ks generalizing p with
  | nil => rfl
  | cons k ks ih => rw [List.map_cons, runRounds_cons, roundOn_not, ih, runRounds_cons]

theorem halves_not (x : Block) : halves (~~~x) = notPair (halves x) := by
  rw [halves, upperHalf, lowerHalf, extractLsb'_not_of_le x (by omega), extractLsb'_not_of_le x (by omega)]
  rfl

theorem joinPair_swap_notPair (p : Half × Half) : joinPair (notPair p).swap = ~~~(joinPair p.swap) :=
  BitVec.not_append.symm

theorem permIP_not (x : Block) : permIP (~~~x) = ~~~(permIP x) := perm_not rfl tableIP_range x

theorem permFP_not (x : Block) : permFP (~~~x) = ~~~(permFP x) := perm_not rfl tableFP_range x

theorem blockWith_not (ks : List Subkey) (b : Block) : blockWith (ks.map (~~~·)) (~~~b) = ~~~(blockWith ks b) := by
  rw [blockWith, permIP_not, halves_not, runRounds_not, joinPair_swap_notPair, permFP_not, blockWith]

theorem desBlock_not (key : Block) (dir : Dir) (b : Block) :
    desBlock (~~~key) dir (~~~b) = ~~~(desBlock key dir b) := by
  rw [desBlock, blockOf_eq_blockWith, subkeysOf_roundKeys_not, blockWith_not, ← blockOf_eq_blockWith, desBlock]

/-- With the subkeys of a key in RKF, a block is DES in the direction of DIR. -/
theorem Hidden.keygen_block (h : Hidden) (key b : Block) : ((h.keygen key).block b).2 = desBlock key h.dir b := by
  rw [Hidden.block_output, Hidden.keygen_rkf, Hidden.keygen_dir, desBlock]

/-- The encryption of the canonical block (R199's example). -/
theorem desBlock_canonical :
    desBlock 0x133457799BBCDFF1#64 .encrypt 0x0123456789ABCDEF#64 = 0x85E813540F0AB405#64 := by decide +kernel

/-- Settles O45: KEYGEN leaves `roundKeys`, whose entries are complemented, and a block is `desBlock`; the example is
`desBlock_not` at the canonical block. -/
theorem blockComplement : Obligations.BlockComplement := by
  refine ⟨fun h key j hj => ?_, fun h key b => ?_, ?_, by decide⟩
  · rw [Hidden.keygen_rkf, Hidden.keygen_rkf, roundKeys_getD_not key hj]
  · rw [Hidden.keygen_block, Hidden.keygen_block, desBlock_not]
  · rw [desBlock_not, desBlock_canonical]
    decide

end Sys2Proof.Machine
end

section
/-! PROOFS of the family 44_block_engine.md, part 3: ECB and PKCS#7 on byte strings. A byte string of whole blocks is
the list of its blocks (`blocksOf`, `concatBlocks`), and ECB is BLOCK on each block of the list (R179). PAD makes valid
padding, and UNPAD strips what is valid and rejects the rest (R180, R181). -/

namespace Sys2Proof.Machine

/-! ## A byte string as a list of blocks (R51) -/

/-- The bytes of a list of blocks, in order. -/
def concatBlocks (bs : List Block) : List Byte := bs.flatMap (bytesOf 8)

/-- The blocks of a byte string. -/
def blocksOf (x : List Byte) : List Block := (List.range (x.length / 8)).map (blockAt x)

@[simp] theorem concatBlocks_cons (b : Block) (bs : List Block) :
    concatBlocks (b :: bs) = bytesOf 8 b ++ concatBlocks bs := rfl

@[simp] theorem concatBlocks_length (bs : List Block) : (concatBlocks bs).length = 8 * bs.length := by
  induction bs with
  | nil => rfl
  | cons b bs ih => rw [concatBlocks_cons, List.length_append, bytesOf_length, ih, List.length_cons, Nat.mul_succ,
      Nat.add_comm]

@[simp] theorem blocksOf_length (x : List Byte) : (blocksOf x).length = x.length / 8 := by
  rw [blocksOf, List.length_map, List.length_range]

theorem blocksOf_getElem (x : List Byte) {j : Nat} (hj : j < (blocksOf x).length) : (blocksOf x)[j] = blockAt x j := by
  simp [blocksOf]

/-- The first block of a byte string is its first eight bytes. -/
theorem blockAt_append_zero {y : List Byte} (hy : y.length = 8) (x : List Byte) : blockAt (y ++ x) 0 = be 64 y := by
  rw [blockAt, Nat.mul_zero, List.drop_zero, List.take_left' hy]

/-- The later blocks are those of the rest. -/
theorem blockAt_append_succ {y : List Byte} (hy : y.length = 8) (x : List Byte) (j : Nat) :
    blockAt (y ++ x) (j + 1) = blockAt x j := by
  rw [blockAt, Nat.mul_succ, Nat.add_comm, ← List.drop_drop, List.drop_left' hy, blockAt]

/-- A block whole inside a byte string does not depend on what follows. -/
theorem blockAt_append_left (x y : List Byte) {j : Nat} (hj : 8 * j + 8 ≤ x.length) :
    blockAt (x ++ y) j = blockAt x j := by
  rw [blockAt, List.drop_append_of_le_length (by omega),
    List.take_append_of_le_length (by rw [List.length_drop]; omega), blockAt]

theorem blockAt_concatBlocks (bs : List Block) {j : Nat} (hj : j < bs.length) :
    blockAt (concatBlocks bs) j = bs[j] := by
  induction bs generalizing j with
  | nil => exact absurd hj (Nat.not_lt_zero j)
  | cons b bs ih =>
    cases j with
    | zero => exact (blockAt_append_zero (bytesOf_length 8 b) _).trans (be_bytesOf 8 b)
    | succ j => exact (blockAt_append_succ (bytesOf_length 8 b) _ j).trans (ih _)

/-- The blocks of the bytes of a list of blocks are that list. -/
theorem blocksOf_concatBlocks (bs : List Block) : blocksOf (concatBlocks bs) = bs := by
  refine List.ext_getElem (by rw [blocksOf_length, concatBlocks_length]; omega) fun j hj hj' => ?_
  rw [blocksOf_getElem, blockAt_concatBlocks bs hj']

theorem blocksOf_append {y : List Byte} (hy : y.length = 8) (x : List Byte) :
    blocksOf (y ++ x) = be 64 y :: blocksOf x := by
  have hcount : (y ++ x).length / 8 = x.length / 8 + 1 := by rw [List.length_append]; omega
  rw [blocksOf, hcount, List.range_succ_eq_map, List.map_cons, List.map_map, blockAt_append_zero hy, blocksOf]
  exact congrArg _ (List.map_congr_left fun j _ => blockAt_append_succ hy x j)

/-- A byte string of whole blocks is the bytes of its blocks. -/
theorem concatBlocks_blocksOf {n : Nat} {x : List Byte} (hx : x.length = 8 * n) : concatBlocks (blocksOf x) = x := by
  induction n generalizing x with
  | zero => rw [List.eq_nil_of_length_eq_zero hx]; rfl
  | succ n ih =>
    have hfirst : (x.take 8).length = 8 := by rw [List.length_take]; omega
    calc concatBlocks (blocksOf x)
      _ = concatBlocks (blocksOf (x.take 8 ++ x.drop 8)) := by rw [List.take_append_drop]
      _ = x.take 8 ++ x.drop 8 := by
        rw [blocksOf_append hfirst, concatBlocks_cons, bytesOf_be_of_length hfirst,
          ih (by rw [List.length_drop]; omega)]
      _ = x := List.take_append_drop 8 x

/-! ## ECB (R179) -/

/-- ECB on the registers is BLOCK on each block. -/
theorem Hidden.ecb_eq_concatBlocks (dir : Dir) (x : List Byte) (h : Hidden) :
    (h.ecb dir x).2 = concatBlocks ((blocksOf x).map (blockOf h.rkf dir)) := by
  rw [Hidden.ecb_output, concatBlocks, blocksOf, List.map_map, List.flatMap_map]
  rfl

/-- So is ECB as a function. -/
theorem ecbOf_eq_concatBlocks (key : Block) (dir : Dir) (x : List Byte) :
    ecbOf key dir x = concatBlocks ((blocksOf x).map (desBlock key dir)) := by
  rw [ecbOf, concatBlocks, blocksOf, List.map_map, List.flatMap_map]
  rfl

/-- The block loop does not write RKF. -/
theorem Hidden.ecbLoop_rkf (input : List Byte) (n : Nat) (h : Hidden) (out : List Byte) :
    (Hidden.ecbLoop input n h out).1.rkf = h.rkf := by
  induction n generalizing h out with
  | zero => rfl
  | succ n ih =>
    by_cases hlt : h.blk < h.nblk
    · rw [Hidden.ecbLoop_succ h input n out hlt, ih, Hidden.nextBlock_rkf, Hidden.block_rkf]
    · rw [Hidden.ecbLoop, if_neg hlt]

/-- Settles O47: the output is the bytes of the list of the blocks' results, and the loop keeps RKF. -/
theorem ecbBlocksAreIndependent : Obligations.EcbBlocksAreIndependent := by
  intro h dir x hwhole
  refine ⟨?_, ?_, fun j hj => ?_⟩
  · rw [Hidden.ecb_eq_concatBlocks, concatBlocks_length, List.length_map, blocksOf_length]
    omega
  · rw [Hidden.ecb, Hidden.ecbLoop_rkf, Hidden.startBlocks_rkf]
  · have hj' : j < ((blocksOf x).map (blockOf h.rkf dir)).length := by rwa [List.length_map, blocksOf_length]
    rw [Hidden.ecb_eq_concatBlocks, blockAt_concatBlocks _ hj', List.getElem_map, blocksOf_getElem]

theorem ecbOf_length (key : Block) (dir : Dir) (x : List Byte) : (ecbOf key dir x).length = 8 * (x.length / 8) := by
  rw [ecbOf_eq_concatBlocks, concatBlocks_length, List.length_map, blocksOf_length]

theorem blockAt_ecbOf (key : Block) (dir : Dir) {x : List Byte} {j : Nat} (hj : 8 * j + 8 ≤ x.length) :
    blockAt (ecbOf key dir x) j = desBlock key dir (blockAt x j) := by
  have hj' : j < ((blocksOf x).map (desBlock key dir)).length := by rw [List.length_map, blocksOf_length]; omega
  rw [ecbOf_eq_concatBlocks, blockAt_concatBlocks _ hj', List.getElem_map, blocksOf_getElem]

/-- ECB of one block. -/
theorem ecbOf_bytesOf (key : Block) (dir : Dir) (b : Block) :
    ecbOf key dir (bytesOf 8 b) = bytesOf 8 (desBlock key dir b) := by
  have hone : blocksOf (bytesOf 8 b) = [b] := blocksOf_concatBlocks [b]
  rw [ecbOf_eq_concatBlocks, hone]
  rfl

/-- Decrypting what was encrypted gives back a byte string of whole blocks (R178, R194). -/
theorem ecbOf_decrypt_encrypt (key : Block) {n : Nat} {x : List Byte} (hx : x.length = 8 * n) :
    ecbOf key .decrypt (ecbOf key .encrypt x) = x := by
  have hundo : (desBlock key .decrypt) ∘ (desBlock key .encrypt) = id := funext (blockOf_decrypt_encrypt _)
  rw [ecbOf_eq_concatBlocks, ecbOf_eq_concatBlocks, blocksOf_concatBlocks, List.map_map, hundo, List.map_id,
    concatBlocks_blocksOf hx]

/-! ## PAD (R180) -/

theorem padLen_pos (n : Nat) : 1 ≤ padLen n := by rw [padLen]; omega

theorem padLen_le (n : Nat) : padLen n ≤ 8 := Nat.sub_le 8 (n % 8)

/-- A pad length fits the byte it is written in. -/
theorem padByte_toNat (n : Nat) : (BitVec.ofNat 8 (padLen n)).toNat = padLen n := by
  have := padLen_le n
  rw [BitVec.toNat_ofNat, Nat.mod_eq_of_lt (by omega)]

theorem pad_length_eq_add (p : List Byte) : (pad p).length = p.length + padLen p.length := by
  rw [pad, List.length_append, List.length_replicate]

theorem pad_length (p : List Byte) : (pad p).length = 8 * (p.length / 8 + 1) := by
  rw [pad_length_eq_add, padLen]
  omega

theorem pad_getLastD (p : List Byte) : (pad p).getLastD 0 = BitVec.ofNat 8 (padLen p.length) := by
  obtain ⟨m, hm⟩ := Nat.exists_eq_add_of_le' (padLen_pos p.length)
  rw [pad, hm, List.replicate_succ', ← List.append_assoc, List.getLastD_concat]

theorem pad_getLastD_toNat (p : List Byte) : ((pad p).getLastD 0).toNat = padLen p.length := by
  rw [pad_getLastD, padByte_toNat]

/-- PAD makes valid padding (R181). -/
theorem paddingValid_pad (p : List Byte) : PaddingValid (pad p) := by
  rw [PaddingValid, pad_getLastD_toNat]
  refine ⟨padLen_pos _, padLen_le _, fun i hlow hhigh => ?_⟩
  rw [pad_length_eq_add] at hlow hhigh
  have hi : i - p.length < padLen p.length := by omega
  rw [pad, List.getD_append_right _ _ _ _ (by omega), List.getD_replicate _ hi, padByte_toNat]

/-! ## UNPAD (R181) -/

/-- The bytes from position a on are all of value n. -/
theorem all_drop_iff (q : List Byte) (a n : Nat) :
    ((q.drop a).all fun b => b.toNat == n) = true ↔ ∀ i, a ≤ i → i < q.length → (q.getD i 0).toNat = n := by
  rw [List.all_eq_true]
  constructor
  · intro hall i hlow hhigh
    have hmem : q[i] ∈ q.drop a := List.mem_drop_iff_getElem.mpr ⟨i - a, by omega, by congr 1; omega⟩
    rw [← List.getElem_eq_getD (h := hhigh)]
    exact beq_iff_eq.mp (hall _ hmem)
  · intro hall b hb
    obtain ⟨i, hi, rfl⟩ := List.mem_drop_iff_getElem.mp hb
    have hbyte := hall (a + i) (by omega) (by omega)
    rw [← List.getElem_eq_getD (h := by omega)] at hbyte
    exact beq_iff_eq.mpr hbyte

/-- UNPAD strips padding that is valid. -/
theorem unpad_of_paddingValid {q : List Byte} (hq : PaddingValid q) :
    unpad q = .ok (q.take (q.length - (q.getLastD 0).toNat)) := by
  obtain ⟨hpos, hle, hbytes⟩ := hq
  rw [unpad, if_neg (by omega), if_pos ((all_drop_iff _ _ _).mpr hbytes)]

/-- UNPAD rejects padding that is not. -/
theorem unpad_of_not_paddingValid {q : List Byte} (hq : ¬ PaddingValid q) : unpad q = .error .cryptoIntegrity := by
  rw [unpad]
  split_ifs with hlen hbytes
  · rfl
  · exact absurd ⟨by omega, by omega, (all_drop_iff _ _ _).mp hbytes⟩ hq
  · rfl

theorem unpad_eq_ok_iff {q r : List Byte} :
    unpad q = .ok r ↔ PaddingValid q ∧ r = q.take (q.length - (q.getLastD 0).toNat) := by
  by_cases hq : PaddingValid q
  · rw [unpad_of_paddingValid hq, Except.ok.injEq, eq_comm, and_iff_right hq]
  · rw [unpad_of_not_paddingValid hq]
    exact ⟨nofun, fun h => absurd h.1 hq⟩

theorem unpad_pad (p : List Byte) : unpad (pad p) = .ok p := by
  rw [unpad_of_paddingValid (paddingValid_pad p), pad_getLastD_toNat, pad_length_eq_add, Nat.add_sub_cancel, pad,
    List.take_left]

/-- Settles O48: the lemmas on PAD, and UNPAD on valid and on other padding. -/
theorem unpadStripsPadding : Obligations.UnpadStripsPadding :=
  ⟨fun p => ⟨pad_length p, List.prefix_append _ _, paddingValid_pad p, pad_getLastD_toNat p⟩, unpad_pad,
    fun _ _ _ _ => unpad_eq_ok_iff, fun _ _ _ => unpad_of_not_paddingValid⟩

end Sys2Proof.Machine
end

section
/-! PROOFS of the family 44_block_engine.md, part 4: the commands ENC and DEC. Their bodies are ECB of the padded
plaintext, and UNPAD of the decrypted ciphertext; what a command that ended OK or CRYPTO_INTEGRITY did is read back from
its STATUS. -/

namespace Sys2Proof.Machine

/-! ## What STATUS says of the end of a command (R210) -/

theorem Completed.statusCode_eq {s t : State} {r : List Byte} (hdone : Completed s t r) :
    statusCode t.status = Code.bits .ok := by
  rw [hdone.status, statusCode_statusWord]

theorem Raised.statusCode_eq {s t : State} {e : Err} (hraised : Raised s t e) :
    statusCode t.status = Code.bits (.error e) := by
  rw [hraised.status, statusCode_statusWord]

theorem Completed.result_length {s t : State} {r : List Byte} (hdone : Completed s t r) :
    t.result.length = r.length := by
  rw [hdone.result]

/-- A command that ended OK had its operands within the capacity and completed with its body's result. -/
theorem exec_ok {i : Instr} {s t : State} (h : exec i s = .next t) (hok : statusCode t.status = Code.bits .ok) :
    (usedOperands i).any s.overCapacity = false ∧ ∃ r, bodyOf i s = .ok r ∧ Completed s t r := by
  rcases exec_cases h with ⟨-, rfl⟩ | ⟨hcap, r, hbody, hfits, rfl⟩ | ⟨-, e, -, rfl⟩
  · exact nomatch Code.bits_injective ((State.raise_spec s _).statusCode_eq.symm.trans hok)
  · exact ⟨hcap, r, hbody, s.complete_spec hfits⟩
  · exact nomatch Code.bits_injective ((State.raise_spec s e).statusCode_eq.symm.trans hok)

/-! ## The bodies of ENC and DEC -/

/-- ENC's body is ECB of the padded plaintext. -/
theorem bodyOf_enc (s : State) :
    bodyOf .enc s = withTwo (requirePresent (s.operand .opa)) (requireLen 8 (s.operand .opb))
      fun p k => .ok (ecbOf (be 64 k) .encrypt (pad p)) := by
  simp only [bodyOf, encBody, encRun_output]

/-- DEC's body is UNPAD of the decrypted ciphertext. -/
theorem bodyOf_dec (s : State) :
    bodyOf .dec s = withTwo (requireBlocks (s.operand .opa)) (requireLen 8 (s.operand .opb))
      fun c k => unpad (ecbOf (be 64 k) .decrypt c) := by
  simp only [bodyOf, decBody, decRun_wbuf]

/-- ENC's argument errors are the failures of its two checks. -/
theorem invalidArguments_enc_iff (p k : Option (List Byte)) :
    InvalidArguments .enc p k ↔
      requirePresent p = .error .invalidArgument ∨ requireLen 8 k = .error .invalidArgument := by
  rw [requirePresent_error, requireLen_error, and_iff_left rfl, and_iff_left rfl, InvalidArguments]

/-- DEC's argument errors are the failures of its two checks. -/
theorem invalidArguments_dec_iff (c k : Option (List Byte)) :
    InvalidArguments .dec c k ↔
      requireBlocks c = .error .invalidArgument ∨ requireLen 8 k = .error .invalidArgument := by
  rw [requireBlocks_error, requireLen_error, and_iff_left rfl, and_iff_left rfl, InvalidArguments,
    or_right_comm, or_assoc, or_assoc]

/-! ## CRYPTO_INTEGRITY comes from DEC only (R196) -/

theorem withOne_error_of_ok {a : Except Err (List Byte)} {f : List Byte → List Byte} {e : Err}
    (h : withOne a (fun x => .ok (f x)) = .error e) : a = .error e := by
  cases a with
  | error e' => exact h
  | ok x => cases h

theorem withTwo_error_of_ok {a b : Except Err (List Byte)} {f : List Byte → List Byte → List Byte} {e : Err}
    (h : withTwo a b (fun x y => .ok (f x y)) = .error e) : a = .error e ∨ b = .error e := by
  cases a with
  | error e' => exact .inl h
  | ok x => exact .inr (withOne_error_of_ok h)

/-- The body of a command other than DEC fails by its operand checks only. -/
theorem bodyOf_error_of_ne_dec {i : Instr} {s : State} {e : Err} (hi : i ≠ .dec) (h : bodyOf i s = .error e) :
    e = .invalidArgument := by
  have hlen {n : Nat} {a : Option (List Byte)} (ha : requireLen n a = .error e) : e = .invalidArgument :=
    (requireLen_error.mp ha).2
  cases i with
  | enc =>
    rcases withTwo_error_of_ok ((bodyOf_enc s).symm.trans h) with ha | hb
    · exact (requirePresent_error.mp ha).2
    · exact hlen hb
  | dec => exact absurd rfl hi
  | genkeys => exact hlen (withOne_error_of_ok h)
  | iperm => exact hlen (withOne_error_of_ok h)
  | fperm => exact hlen (withOne_error_of_ok h)
  | feistel => exact (withTwo_error_of_ok h).elim hlen hlen
  | sbox => exact hlen (withOne_error_of_ok h)

theorem eq_dec_of_cryptoIntegrity {i : Instr} {s t : State} (h : exec i s = .next t)
    (hcode : statusCode t.status = Code.bits (.error .cryptoIntegrity)) : i = .dec := by
  rcases exec_cases h with ⟨-, rfl⟩ | ⟨-, r, -, hfits, rfl⟩ | ⟨-, e, hbody, rfl⟩
  · exact nomatch Code.bits_injective ((State.raise_spec s _).statusCode_eq.symm.trans hcode)
  · exact nomatch Code.bits_injective ((s.complete_spec hfits).statusCode_eq.symm.trans hcode)
  · cases Code.bits_injective ((State.raise_spec s e).statusCode_eq.symm.trans hcode)
    by_contra hi
    exact nomatch bodyOf_error_of_ne_dec hi hbody

/-! ## ENC (R190) -/

/-- A key of 8 bytes fits its operand buffer. -/
theorem key_withinCapacity {s : State} {k : List Byte} (hk : s.operand .opb = some k) (hklen : k.length = 8) :
    s.overCapacity .opb = false :=
  State.overCapacity_of_length hk (by have := Config.maxLen_pos; omega)

/-- ENC of a plaintext that fits its buffer completes with ECB of the padded plaintext. -/
theorem exec_enc_complete {s : State} {p k : List Byte} (hp : s.operand .opa = some p)
    (hfits : p.length ≤ Config.maxLen) (hk : s.operand .opb = some k) (hklen : k.length = 8) :
    ∃ t, exec .enc s = .next t ∧ Completed s t (ecbOf (be 64 k) .encrypt (pad p)) :=
  exec_twoOperands_complete rfl (bodyOf_enc s) (State.overCapacity_of_length hp hfits) (key_withinCapacity hk hklen)
    (requirePresent_ok.mpr hp) (requireLen_ok.mpr ⟨hk, hklen⟩) rfl

theorem exec_enc_invalidArgument {s : State} (ha : s.overCapacity .opa = false) (hb : s.overCapacity .opb = false)
    (hbad : InvalidArguments .enc (s.operand .opa) (s.operand .opb)) :
    ∃ t, exec .enc s = .next t ∧ Raised s t .invalidArgument :=
  exec_twoOperands_invalidArgument rfl (bodyOf_enc s) ha hb (fun _ he => (requirePresent_error.mp he).2)
    ((invalidArguments_enc_iff _ _).mp hbad)

/-- The length of ENC's result (R182). -/
theorem ecbOf_pad_length (key : Block) (dir : Dir) (p : List Byte) :
    (ecbOf key dir (pad p)).length = 8 * (p.length / 8 + 1) := by
  rw [ecbOf_length, pad_length, Nat.mul_div_cancel_left _ (by decide)]

/-- What ENC of a plaintext did if it ended OK. -/
theorem exec_enc_ok {s t : State} {p : List Byte} (hp : s.operand .opa = some p) (h : exec .enc s = .next t)
    (hok : statusCode t.status = Code.bits .ok) :
    p.length ≤ Config.maxLen ∧
      ∃ k, s.operand .opb = some k ∧ Completed s t (ecbOf (be 64 k) .encrypt (pad p)) := by
  obtain ⟨hcap, r, hbody, hdone⟩ := exec_ok h hok
  rw [anyOverCapacity_of_pair rfl, Bool.or_eq_false_iff] at hcap
  obtain ⟨hcapA, -⟩ := hcap
  obtain ⟨p', hp', hbody⟩ := withOne_eq_ok.mp ((bodyOf_enc s).symm.trans hbody)
  obtain ⟨k, hk, hr⟩ := withOne_eq_ok.mp hbody
  cases hp.symm.trans (requirePresent_ok.mp hp')
  cases hr
  exact ⟨State.operand_length_le hp hcapA, k, (requireLen_ok.mp hk).1, hdone⟩

/-- Settles O29: the result by `exec_enc_complete`, the errors by the operand checks, and CRYPTO_INTEGRITY would make it
DEC. -/
theorem encMeetsItsRule : Obligations.EncMeetsItsRule := by
  refine ⟨decode_encode .enc, fun s p k hp hfits hk hklen => ?_, fun _ => exec_enc_invalidArgument,
    fun _ hcap => exec_twoOperands_unsupported rfl hcap,
    fun _ _ h hcode => absurd (eq_dec_of_cryptoIntegrity h hcode) (by decide), by decide +kernel⟩
  obtain ⟨t, hexec, hdone⟩ := exec_enc_complete hp hfits hk hklen
  exact ⟨t, hexec, hdone, hdone.len.trans (ecbOf_pad_length _ _ p)⟩

/-- Settles O46: equal subkeys by `blockOf_encrypt_encrypt`; the weak keys have them (`roundKeys_getD_of_weak`), and for
ENC they are 8-byte keys as any other. -/
theorem weakKeys : Obligations.WeakKeys := by
  refine ⟨fun h b hequal hdir => ?_, fun key (hkey : key ∈ weakKeyList) => ⟨fun h i j hi hj => ?_, fun b => ?_,
    fun s p hp hfits hk => ?_⟩⟩
  · rw [Hidden.block_output, Hidden.block_output, hdir, blockOf_encrypt_encrypt hequal]
  · rw [Hidden.keygen_rkf, roundKeys_getD_of_weak hkey hi hj]
  · exact blockOf_encrypt_encrypt (fun i j => roundKeys_getD_of_weak hkey) b
  · obtain ⟨t, hexec, hdone⟩ := exec_enc_complete hp hfits hk (bytesOf_length 8 key)
    exact ⟨t, hexec, hdone.statusCode_eq⟩

/-- Settles O50: the padded empty plaintext is one block of eight 08s; an absent one fails ENC's first check. -/
theorem emptyPlaintext : Obligations.EmptyPlaintext := by
  have hmax := Config.maxLen_pos
  refine ⟨fun s k hp hk hklen => ?_, fun s k habsent hk hklen => ?_⟩
  · have hpad : pad [] = bytesOf 8 0x0808080808080808#64 := by decide
    obtain ⟨t, hexec, hdone⟩ := exec_enc_complete hp (Nat.zero_le _) hk hklen
    rw [hpad, ecbOf_bytesOf] at hdone
    exact ⟨t, hexec, hdone, BitVec.eq_of_toNat_eq (hdone.len.trans (bytesOf_length 8 _))⟩
  · have hcap : s.overCapacity .opa = false := by
      rw [Bool.eq_false_iff, Ne, State.overCapacity_iff, habsent]
      exact nofun
    exact exec_enc_invalidArgument hcap (key_withinCapacity hk hklen) (.inl habsent)

/-- A whole block of the plaintext is the same block of the padded plaintext, so ENC's result holds its encryption. -/
theorem blockAt_ecbOf_pad (key : Block) {p : List Byte} {j : Nat} (hj : 8 * j + 8 ≤ p.length) :
    blockAt (ecbOf key .encrypt (pad p)) j = desBlock key .encrypt (blockAt p j) := by
  rw [blockAt_ecbOf key .encrypt (by rw [pad_length_eq_add]; omega), pad, blockAt_append_left _ _ hj]

/-- Settles O51: by `blockAt_ecbOf_pad` each block of the result is a function of the key and the plaintext's block. -/
theorem equalBlocksEncryptEqually : Obligations.EqualBlocksEncryptEqually := by
  refine ⟨fun s t p i j hp h hok hi hj hsame => ?_, fun s t s' t' p p' j hp hp' hkey h h' hok hok' hj hj' hsame => ?_,
    by decide +kernel⟩
  · obtain ⟨-, k, -, hdone⟩ := exec_enc_ok hp h hok
    rw [hdone.result, blockAt_ecbOf_pad _ hi, blockAt_ecbOf_pad _ hj, hsame]
  · obtain ⟨-, k, hk, hdone⟩ := exec_enc_ok hp h hok
    obtain ⟨-, k', hk', hdone'⟩ := exec_enc_ok hp' h' hok'
    cases hk.symm.trans (hkey.trans hk')
    rw [hdone.result, hdone'.result, blockAt_ecbOf_pad _ hj, blockAt_ecbOf_pad _ hj', hsame]

/-! ## DEC (R191) -/

/-- Operands that pass all of DEC's checks. -/
structure DecOperands (s : State) (c k : List Byte) : Prop where
  opa : s.operand .opa = some c
  nonempty : c.length ≠ 0
  whole : c.length % 8 = 0
  fits : c.length ≤ Config.maxLen
  opb : s.operand .opb = some k
  keyLen : k.length = 8

section
variable {s : State} {c k : List Byte}

theorem DecOperands.withinCapacity (hops : DecOperands s c k) : (usedOperands .dec).any s.overCapacity = false := by
  rw [anyOverCapacity_of_pair rfl, State.overCapacity_of_length hops.opa hops.fits,
    key_withinCapacity hops.opb hops.keyLen, Bool.or_false]

/-- With such operands DEC's body is UNPAD of the decrypted ciphertext. -/
theorem DecOperands.bodyOf_dec (hops : DecOperands s c k) :
    bodyOf .dec s = unpad (ecbOf (be 64 k) .decrypt c) := by
  rw [Machine.bodyOf_dec, requireBlocks_ok.mpr ⟨hops.opa, hops.nonempty, hops.whole⟩,
    requireLen_ok.mpr ⟨hops.opb, hops.keyLen⟩, withTwo, withOne_ok, withOne_ok]

theorem DecOperands.exec_complete (hops : DecOperands s c k) {r : List Byte}
    (hr : unpad (ecbOf (be 64 k) .decrypt c) = .ok r) : ∃ t, exec .dec s = .next t ∧ Completed s t r :=
  ⟨_, Machine.exec_complete hops.withinCapacity (hops.bodyOf_dec.trans hr)⟩

theorem DecOperands.exec_raise (hops : DecOperands s c k) {e : Err}
    (he : unpad (ecbOf (be 64 k) .decrypt c) = .error e) : ∃ t, exec .dec s = .next t ∧ Raised s t e :=
  ⟨_, Machine.exec_raise hops.withinCapacity (hops.bodyOf_dec.trans he)⟩

/-- DEC of whole blocks decrypts to as many bytes. -/
theorem DecOperands.ecbOf_length (hops : DecOperands s c k) : (ecbOf (be 64 k) .decrypt c).length = c.length := by
  rw [Machine.ecbOf_length, Nat.mul_div_cancel' (Nat.dvd_of_mod_eq_zero hops.whole)]

/-- What DEC of a ciphertext did if it ended OK. -/
theorem exec_dec_ok {t : State} (hc : s.operand .opa = some c) (h : exec .dec s = .next t)
    (hok : statusCode t.status = Code.bits .ok) :
    ∃ k r, DecOperands s c k ∧ unpad (ecbOf (be 64 k) .decrypt c) = .ok r ∧ Completed s t r := by
  obtain ⟨hcap, r, hbody, hdone⟩ := exec_ok h hok
  rw [anyOverCapacity_of_pair rfl, Bool.or_eq_false_iff] at hcap
  obtain ⟨hcapA, -⟩ := hcap
  obtain ⟨c', hc', hbody⟩ := withOne_eq_ok.mp ((bodyOf_dec s).symm.trans hbody)
  obtain ⟨k, hk, hr⟩ := withOne_eq_ok.mp hbody
  obtain ⟨hopa, hnonempty, hwhole⟩ := requireBlocks_ok.mp hc'
  obtain ⟨hopb, hklen⟩ := requireLen_ok.mp hk
  cases hc.symm.trans hopa
  exact ⟨k, r, ⟨hc, hnonempty, hwhole, State.operand_length_le hc hcapA, hopb, hklen⟩, hr, hdone⟩

end

/-- Settles O30: valid and other padding by the two lemmas on UNPAD, the other errors by the operand checks. -/
theorem decMeetsItsRule : Obligations.DecMeetsItsRule := by
  refine ⟨decode_encode .dec, fun s c k hc hnonempty hwhole hfits hk hklen hvalid => ?_,
    fun s c k hc hnonempty hwhole hfits hk hklen hbad => ?_, fun s ha hb hbad => ?_,
    fun _ hcap => exec_twoOperands_unsupported rfl hcap, by decide +kernel⟩
  · have hops : DecOperands s c k := ⟨hc, hnonempty, hwhole, hfits, hk, hklen⟩
    rw [← hops.ecbOf_length]
    exact hops.exec_complete (unpad_of_paddingValid hvalid)
  · have hops : DecOperands s c k := ⟨hc, hnonempty, hwhole, hfits, hk, hklen⟩
    exact hops.exec_raise (unpad_of_not_paddingValid hbad)
  · exact exec_twoOperands_invalidArgument rfl (bodyOf_dec s) ha hb (fun _ he => (requireBlocks_error.mp he).2)
      ((invalidArguments_dec_iff _ _).mp hbad)

/-- Settles O49: ENC's length is `ecbOf_pad_length`; DEC strips 1 to 8 of the m decrypted bytes. -/
theorem resultLengths : Obligations.ResultLengths := by
  refine ⟨fun s t p hp h hok => ?_, fun s t c hc h hok => ?_⟩
  · obtain ⟨hfits, k, -, hdone⟩ := exec_enc_ok hp h hok
    have hblocks := Config.maxLen_blocks
    have hlen := ecbOf_pad_length (be 64 k) .encrypt p
    rw [hdone.len, hdone.result_length, hlen]
    omega
  · obtain ⟨k, r, hops, hr, hdone⟩ := exec_dec_ok hc h hok
    obtain ⟨⟨hpos, hle, -⟩, rfl⟩ := unpad_eq_ok_iff.mp hr
    have hnonempty := hops.nonempty
    have hwhole := hops.whole
    rw [hdone.result_length, List.length_take, hops.ecbOf_length]
    omega

/-! ## The round trip (R194) -/

/-- UNPAD of the decrypted encryption of a padded plaintext is the plaintext, at every length. -/
theorem unpad_ecbOf_ecbOf_pad (key : Block) (p : List Byte) :
    unpad (ecbOf key .decrypt (ecbOf key .encrypt (pad p))) = .ok p := by
  rw [ecbOf_decrypt_encrypt key (pad_length p), unpad_pad]

/-- Settles O52: below MAXLEN the ciphertext is an operand that passes DEC's checks; at MAXLEN it is over capacity. -/
theorem encryptDecryptRoundTrip : Obligations.EncryptDecryptRoundTrip := by
  have hblocks := Config.maxLen_blocks
  refine ⟨fun s p k hp hshort hk hklen => ?_, fun s p k hp hmax hk hklen => ?_,
    fun p key => unpad_ecbOf_ecbOf_pad key p⟩
  · obtain ⟨t, hexec, hdone⟩ := exec_enc_complete hp (Nat.le_of_lt hshort) hk hklen
    refine ⟨t, hexec, hdone.statusCode_eq, fun u hu huk => ?_⟩
    rw [hdone.result] at hu
    have hlen := ecbOf_pad_length (be 64 k) .encrypt p
    have hops : DecOperands u _ k := ⟨hu, by omega, by omega, by omega, huk, hklen⟩
    exact hops.exec_complete (unpad_ecbOf_ecbOf_pad _ p)
  · obtain ⟨t, hexec, hdone⟩ := exec_enc_complete hp (Nat.le_of_eq hmax) hk hklen
    refine ⟨t, hexec, hdone.statusCode_eq, fun u hu => ?_⟩
    rw [hdone.result] at hu
    have hlen := ecbOf_pad_length (be 64 k) .encrypt p
    have hover : u.overCapacity .opa = true := (u.overCapacity_iff .opa).mpr ⟨_, hu, by omega⟩
    exact exec_twoOperands_unsupported rfl (.inl hover)

/-! ## The integrity check (R196, R197) -/

/-- The canonical key of the examples, as a block. -/
abbrev canonicalKey : Block := 0x133457799BBCDFF1#64

/-- R197's examples, by evaluation: the two ciphertexts with a changed last byte do not unpad. -/
theorem unpad_changed_canonical : ∀ c ∈ [bytesOf 16 0x85E813540F0AB405FDF2E17449292200#128,
    bytesOf 16 0x85E813540F0AB405FDF2E17449292209#128],
    unpad (ecbOf (be 64 (bytesOf 8 canonicalKey)) .decrypt c) = .error .cryptoIntegrity := by decide +kernel

/-- R197's example of a changed ciphertext that unpads, by evaluation. -/
theorem unpad_changed_accepted :
    unpad (ecbOf (be 64 (bytesOf 8 canonicalKey)) .decrypt (bytesOf 8 0x8839769FE1D1E200#64)) =
      .ok (bytesOf 7 0x06D941C4941EDA#56) := by decide +kernel

/-- The ciphertext it is changed from, by evaluation. -/
theorem ecbOf_pad_example : ecbOf (be 64 (bytesOf 8 canonicalKey)) .encrypt (pad (bytesOf 4 0x0000004F#32)) =
    bytesOf 8 0x8839769FE1D1E2FE#64 := by decide +kernel

/-- Operands of DEC given as literals of whole blocks. -/
theorem decOperands_bytesOf {s : State} {n m : Nat} {v : BitVec n} {key : Block}
    (hc : s.operand .opa = some (bytesOf m v)) (hk : s.operand .opb = some (bytesOf 8 key)) (hpos : m ≠ 0)
    (hwhole : m % 8 = 0) (hsmall : m ≤ 96) : DecOperands s (bytesOf m v) (bytesOf 8 key) where
  opa := hc
  nonempty := by rwa [bytesOf_length]
  whole := by rwa [bytesOf_length]
  fits := by rw [bytesOf_length]; exact hsmall.trans Config.maxLen_pos
  opb := hk
  keyLen := bytesOf_length 8 key

/-- Settles O53: UNPAD decides the end of DEC; another command with this code would be DEC; the examples are
evaluated. -/
theorem integrityErrorExactly : Obligations.IntegrityErrorExactly := by
  refine ⟨fun s c k hc hnonempty hwhole hfits hk hklen => ?_, fun _ _ _ => eq_dec_of_cryptoIntegrity, fun s hk => ?_,
    by decide +kernel, by decide +kernel⟩
  · have hops : DecOperands s c k := ⟨hc, hnonempty, hwhole, hfits, hk, hklen⟩
    by_cases hvalid : PaddingValid (ecbOf (be 64 k) .decrypt c)
    · obtain ⟨t, hexec, hdone⟩ := hops.exec_complete (unpad_of_paddingValid hvalid)
      have hcode := hdone.statusCode_eq
      exact ⟨t, hexec, iff_of_true hcode hvalid, by rw [hcode]; exact iff_of_false (by decide) (not_not.mpr hvalid)⟩
    · obtain ⟨t, hexec, hraised⟩ := hops.exec_raise (unpad_of_not_paddingValid hvalid)
      have hcode := hraised.statusCode_eq
      exact ⟨t, hexec, by rw [hcode]; exact iff_of_false (by decide) hvalid, iff_of_true hcode hvalid⟩
  · refine ⟨fun hc => ?_, fun hc => ?_, fun hp => ?_, fun hc => ?_⟩
    · exact (decOperands_bytesOf hc hk (by decide) (by decide) (by decide)).exec_raise
        (unpad_changed_canonical _ (by simp))
    · exact (decOperands_bytesOf hc hk (by decide) (by decide) (by decide)).exec_raise
        (unpad_changed_canonical _ (by simp))
    · have hfits : (bytesOf 4 0x0000004F#32).length ≤ Config.maxLen := by
        have := Config.maxLen_pos
        rw [bytesOf_length]
        omega
      exact ecbOf_pad_example ▸ exec_enc_complete hp hfits hk (bytesOf_length 8 _)
    · exact (decOperands_bytesOf hc hk (by decide) (by decide) (by decide)).exec_complete unpad_changed_accepted

end Sys2Proof.Machine
end

section
/-! PROOFS of the family 60_exceptions.md: the outcome of a command word (R210), decided in the order of R215. STATUS
tells the outcomes apart, so each statement is one about `outcomeOf` and the bodies of the commands. -/

namespace Sys2Proof.Machine

/-! ## What a finished command shows -/

/-- The step that takes the write of a word to CMD ends the word with its outcome (R210). -/
theorem step_wrCmd_eq_finish {s : State} {w : Word} {rest : List Input} (h : s.inputs = .wrCmd w :: rest) :
    step s = .next (((s.popInput rest).setCmd w).finish (outcomeOf w s)) := by
  have hpop : outcomeOf w (s.popInput rest) = outcomeOf w s :=
    outcomeOf_congr fun _ _ b _ => State.operand_congr rfl rfl rfl b
  rw [step_cons h, acceptInput, commandWrite_eq_finish, hpop]

/-- CODE shows an error exactly when it is the outcome. -/
theorem State.finish_statusCode_error_iff (s : State) (o : Except Err (List Byte)) (e : Err) :
    statusCode (s.finish o).status = Code.bits (.error e) ↔ o = .error e := by
  cases o with
  | ok r =>
    rw [State.finish_ok, State.complete_status, statusCode_statusWord]
    exact iff_of_false (fun h => nomatch Code.bits_injective h) nofun
  | error e' =>
    rw [State.finish_error, State.raise_status, statusCode_statusWord, Except.error.injEq]
    refine ⟨fun h => ?_, fun h => by rw [h]⟩
    cases Code.bits_injective h
    rfl

/-! ## Argument errors (R213) -/

section
variable {a b : Except Err (List Byte)} {e : Err}

/-- A body that does not fail with `e` itself does so exactly when its operand's check does. -/
theorem withOne_eq_error_iff {f : List Byte → Except Err (List Byte)} (hf : ∀ x, f x ≠ .error e) :
    withOne a f = .error e ↔ a = .error e := by
  cases a with
  | error e' => rw [withOne_error]
  | ok x => exact iff_of_false (hf x) nofun

/-- So does one over two operands, when the first check fails with `e` only. -/
theorem withTwo_eq_error_iff {f : List Byte → List Byte → Except Err (List Byte)}
    (ha : ∀ e', a = .error e' → e' = e) (hf : ∀ x y, f x y ≠ .error e) :
    withTwo a b f = .error e ↔ a = .error e ∨ b = .error e := by
  refine ⟨fun h => ?_, withTwo_error ha⟩
  cases a with
  | error e' => exact .inl h
  | ok x => exact .inr ((withOne_eq_error_iff (hf x)).mp h)

end

/-- The length check of a command's only operand fails exactly on the causes R213 lists for it. -/
theorem withOne_requireLen_invalidArgument_iff {n : Nat} {a : Option (List Byte)} {f : List Byte → List Byte} :
    withOne (requireLen n a) (fun x => .ok (f x)) = .error .invalidArgument ↔
      a = none ∨ ∃ x, a = some x ∧ x.length ≠ n :=
  Iff.trans (withOne_eq_error_iff fun _ => nofun) (requireLen_error.trans (and_iff_left rfl))

theorem unpad_ne_invalidArgument (q : List Byte) : unpad q ≠ .error .invalidArgument :=
  fun h => nomatch unpad_error h

/-- The body of a command fails with INVALID_ARGUMENT exactly on the causes R213 lists for the command. -/
theorem bodyOf_invalidArgument_iff (i : Instr) (s : State) :
    bodyOf i s = .error .invalidArgument ↔ InvalidArguments i (s.operand .opa) (s.operand .opb) := by
  cases i with
  | enc =>
    rw [bodyOf_enc, invalidArguments_enc_iff]
    exact withTwo_eq_error_iff (fun _ he => (requirePresent_error.mp he).2) fun _ _ => nofun
  | dec =>
    rw [bodyOf_dec, invalidArguments_dec_iff]
    exact withTwo_eq_error_iff (fun _ he => (requireBlocks_error.mp he).2) fun _ _ => unpad_ne_invalidArgument _
  | feistel =>
    rw [bodyOf_feistel, invalidArguments_feistel_iff]
    exact withTwo_eq_error_iff (fun _ he => (requireLen_error.mp he).2) fun _ _ => nofun
  | genkeys => exact withOne_requireLen_invalidArgument_iff
  | iperm => exact withOne_requireLen_invalidArgument_iff
  | fperm => exact withOne_requireLen_invalidArgument_iff
  | sbox => exact withOne_requireLen_invalidArgument_iff

/-- A body fails by an argument error, or it is DEC's and the padding is bad (R196, R213). -/
theorem bodyOf_error_cases {i : Instr} {s : State} {e : Err} (h : bodyOf i s = .error e) :
    e = .invalidArgument ∨ (i = .dec ∧ e = .cryptoIntegrity) := by
  by_cases hi : i = .dec
  · subst hi
    rw [bodyOf_dec] at h
    rcases withOne_eq_error.mp h with ha | ⟨c, -, h⟩
    · exact .inl (requireBlocks_error.mp ha).2
    · rcases withOne_eq_error.mp h with hb | ⟨k, -, hpad⟩
      · exact .inl (requireLen_error.mp hb).2
      · exact .inr ⟨rfl, unpad_error hpad⟩
  · exact .inl (bodyOf_error_of_ne_dec hi h)

/-! ## Capacity (R211) -/

theorem withinCapacity_iff (i : Instr) (s : State) :
    WithinCapacity i s ↔ (usedOperands i).any s.overCapacity = false := by
  simp only [WithinCapacity, List.any_eq_false, Bool.not_eq_true]

theorem State.overCapacity_iff_len (s : State) (b : OperandBuf) :
    s.overCapacity b = true ↔ (s.operandBuffer b).present = true ∧ Config.maxLen < (s.operandBuffer b).len.toNat := by
  rw [State.overCapacity, Bool.and_eq_true, decide_eq_true_iff]

theorem not_withinCapacity_iff (i : Instr) (s : State) :
    ¬ WithinCapacity i s ↔ ∃ b ∈ usedOperands i, (s.operandBuffer b).present = true ∧
      Config.maxLen < (s.operandBuffer b).len.toNat := by
  simp only [withinCapacity_iff, Bool.not_eq_false, List.any_eq_true, State.overCapacity_iff_len]

/-! ## The order of the outcomes (R215) -/

section
variable {w : Word} {i : Instr} {s : State}

theorem outcomeOf_of_not_withinCapacity (hd : decode w = .command i) (hcap : ¬ WithinCapacity i s) :
    outcomeOf w s = .error .unsupported := by
  rw [withinCapacity_iff, Bool.not_eq_false] at hcap
  rw [outcomeOf_command hd, if_pos hcap]

theorem outcomeOf_of_withinCapacity (hd : decode w = .command i) (hcap : WithinCapacity i s) :
    outcomeOf w s = bodyOf i s := by
  rw [outcomeOf_command hd, (withinCapacity_iff i s).mp hcap, if_neg Bool.false_ne_true]

/-- No body fails with UNSUPPORTED, so the word's own two causes are all there are (R211). -/
theorem outcomeOf_unsupported_iff (w : Word) (s : State) :
    outcomeOf w s = .error .unsupported ↔
      (∃ why, decode w = .illegal why) ∨ ∃ i, decode w = .command i ∧ ¬ WithinCapacity i s := by
  constructor
  · intro h
    cases hd : decode w with
    | illegal why => exact .inl ⟨why, rfl⟩
    | command i =>
      refine .inr ⟨i, rfl, fun hcap => ?_⟩
      rw [outcomeOf_of_withinCapacity hd hcap] at h
      rcases bodyOf_error_cases h with he | ⟨-, he⟩ <;> cases he
  · rintro (⟨why, hd⟩ | ⟨i, hd, hcap⟩)
    · exact outcomeOf_illegal hd s
    · exact outcomeOf_of_not_withinCapacity hd hcap

/-- Any other outcome is that of a command's body. -/
theorem outcomeOf_of_ne_unsupported (h : outcomeOf w s ≠ .error .unsupported) :
    ∃ i, decode w = .command i ∧ outcomeOf w s = bodyOf i s := by
  cases hd : decode w with
  | illegal why => exact absurd (outcomeOf_illegal hd s) h
  | command i =>
    by_cases hcap : WithinCapacity i s
    · exact ⟨i, rfl, outcomeOf_of_withinCapacity hd hcap⟩
    · exact absurd (outcomeOf_of_not_withinCapacity hd hcap) h

theorem decode_of_outcomeOf_cryptoIntegrity (h : outcomeOf w s = .error .cryptoIntegrity) :
    decode w = .command .dec := by
  obtain ⟨i, hd, hbody⟩ := outcomeOf_of_ne_unsupported (w := w) (s := s) (by rw [h]; exact nofun)
  rcases bodyOf_error_cases (hbody.symm.trans h) with he | ⟨rfl, -⟩
  · cases he
  · exact hd

end

/-- Operands of DEC with neither a capacity nor an argument error pass all of its checks. -/
theorem decOperands_of_not_invalidArguments {s : State} {c k : List Byte} (hcap : WithinCapacity .dec s)
    (hargs : ¬ InvalidArguments .dec (s.operand .opa) (s.operand .opb)) (hc : s.operand .opa = some c)
    (hk : s.operand .opb = some k) : DecOperands s c k := by
  rw [hc, hk] at hargs
  simp only [InvalidArguments, reduceCtorEq, false_or, Option.some.injEq, exists_eq_left', not_or, not_not] at hargs
  obtain ⟨hklen, hnonempty, hwhole⟩ := hargs
  have hfits := State.operand_length_le hc (hcap .opa List.mem_cons_self)
  exact ⟨hc, hnonempty, hwhole, hfits, hk, hklen⟩

/-- Within the capacity a command ends with the outcome of its body. -/
theorem exec_of_withinCapacity {i : Instr} {s : State} (hcap : WithinCapacity i s) :
    exec i s = .next (s.finish (bodyOf i s)) := by
  rw [exec_eq, State.runCommand_eq_finish, (withinCapacity_iff i s).mp hcap, if_neg Bool.false_ne_true]

/-! ## The obligations -/

/-- Settles O13: a word whose outcome is a result ends OK, and every other raises its error. -/
theorem errorsChangeOnlyStatusAndLength : Obligations.ErrorsChangeOnlyStatusAndLength := by
  intro s t w rest hx ht hne
  cases (step_wrCmd_eq_finish hx).symm.trans ht
  cases ho : outcomeOf w s with
  | ok r =>
    rw [ho] at hne
    exact absurd (State.complete_spec _ (outcomeOf_length_le ho)).statusCode_eq hne
  | error e => exact ⟨e, State.raise_spec _ e⟩

/-- Settles O14: each clause gives the word's outcome; DEC's body on operands that pass its checks is UNPAD. -/
theorem errorPriority : Obligations.ErrorPriority := by
  intro s w rest hx
  refine ⟨_, step_wrCmd_eq_finish hx, ?_⟩
  simp only [State.finish_statusCode_error_iff]
  refine ⟨fun why hd => outcomeOf_illegal hd s, fun i => outcomeOf_of_not_withinCapacity, fun i hd hcap hargs => ?_,
    fun c k hd hcap hargs hc hk hbad => ?_⟩
  · rw [outcomeOf_of_withinCapacity hd hcap, bodyOf_invalidArgument_iff]
    exact hargs
  · have hops := decOperands_of_not_invalidArguments hcap hargs hc hk
    rw [outcomeOf_of_withinCapacity hd hcap, hops.bodyOf_dec, unpad_of_not_paddingValid hbad]

/-- Settles O15: within the capacity the outcome is the body's, which is INVALID_ARGUMENT on R213's causes. -/
theorem invalidArgumentExactly : Obligations.InvalidArgumentExactly := by
  refine fun i s hcap => ⟨_, exec_of_withinCapacity hcap, ?_, fun hargs => ?_⟩
  · rw [State.finish_statusCode_error_iff, bodyOf_invalidArgument_iff]
  · rw [(bodyOf_invalidArgument_iff i s).mpr hargs]
    exact s.raise_spec .invalidArgument

/-- Settles O16: `outcomeOf_unsupported_iff`, with the capacity written out as PRESENT and LEN. -/
theorem unsupportedExactly : Obligations.UnsupportedExactly := by
  intro s w rest hx
  refine ⟨_, step_wrCmd_eq_finish hx, ?_⟩
  simp only [State.finish_statusCode_error_iff, outcomeOf_unsupported_iff, not_withinCapacity_iff,
    exists_and_left]

/-- Settles O17: the outcome of a word is a result or one error, and `State.finish` shows it; any outcome but
UNSUPPORTED is that of a command's body. -/
theorem everyCommandEndsInOneOutcome : Obligations.EveryCommandEndsInOneOutcome := by
  intro s w rest hx
  have hstep := step_wrCmd_eq_finish hx
  have hcommand (h : outcomeOf w s ≠ .error .unsupported) : ∃ i, decode w = .command i :=
    (outcomeOf_of_ne_unsupported h).imp fun _ => And.left
  cases ho : outcomeOf w s with
  | ok r =>
    rw [ho] at hstep hcommand
    exact ⟨_, .ok, hstep, rfl, .inl rfl, fun _ => hcommand nofun, nofun,
      fun _ => ⟨r, State.complete_spec _ (outcomeOf_length_le ho)⟩, nofun⟩
  | error e =>
    rw [ho] at hstep hcommand
    refine ⟨_, .error e, hstep, rfl, ?_, ?_, ?_, nofun, ?_⟩
    · cases e <;> simp
    · rintro (h | h) <;> cases h
      exact hcommand nofun
    · intro h
      cases h
      exact decode_of_outcomeOf_cryptoIntegrity ho
    · intro e' h
      cases h
      exact State.raise_spec _ e

end Sys2Proof.Machine
end

section
/-! PROOFS of the family 70_reset_and_hazards.md: what RESET leaves (R240), and the commands without operands (R243). -/

namespace Sys2Proof.Machine

/-! ## Bytes that read as unspecified -/

/-- A byte of an operand buffer to which nothing was written reads as a free value (R36, R38). -/
theorem State.operandByte_of_unwritten {s : State} {b : OperandBuf} (h : (s.operandBuffer b).data = []) (i : Nat) :
    s.operandByte b i = Config.freeOperandByte s.resetNo b i := by
  rw [State.operandByte, h, Memory.byteAt, Option.getD_none]

/-- A byte of RES_DATA at or above RES_LEN reads as a free value (R23). -/
theorem State.resByte_of_resLen_le {s : State} {i : Nat} (h : s.res.len.toNat ≤ i) :
    s.resByte i = Config.freeResByte s.resetNo s.cmdNo i := by
  rw [State.resByte, if_neg (Nat.not_lt.mpr h)]

/-! ## RESET -/

theorem State.reset_operandBuffer (b : OperandBuf) : State.reset.operandBuffer b = .reset := by
  cases b <;> rfl

theorem State.assertReset_operandBuffer (s : State) (b : OperandBuf) : s.assertReset.operandBuffer b = .reset :=
  State.reset_operandBuffer b

/-- Settles O7: RESET and power-on leave both operand buffers unwritten and RES_LEN 0, so that every byte reads as a
free value; the registers have their reset values by definition. -/
theorem resetGivesTheStatedValues : Obligations.ResetGivesTheStatedValues := by
  have hreset : OperandBuffer.reset.data = [] := rfl
  refine ⟨fun s rest hx => ⟨(s.popInput rest).assertReset, step_cons hx, rfl, rfl, rfl, rfl, rfl, rfl, rfl,
      fun b => ?_, fun i => State.resByte_of_resLen_le i.zero_le, rfl, rfl⟩,
    rfl, rfl, rfl, rfl, rfl, rfl, rfl, fun b => ?_, fun i => State.resByte_of_resLen_le i.zero_le⟩
  · exact State.operandByte_of_unwritten (by rw [State.assertReset_operandBuffer, hreset])
  · exact State.operandByte_of_unwritten (by rw [State.reset_operandBuffer, hreset])

/-! ## Commands without operands -/

theorem State.operand_of_absent {s : State} {b : OperandBuf} (h : (s.operandBuffer b).present = false) :
    s.operand b = none := by
  rw [State.operand, h, if_neg Bool.false_ne_true]

/-- An absent operand is not over capacity, whatever its LEN register holds (R211 (b)). -/
theorem State.overCapacity_of_absent {s : State} {b : OperandBuf} (h : (s.operandBuffer b).present = false) :
    s.overCapacity b = false := by
  rw [State.overCapacity, h, Bool.false_and]

/-- Every command needs one of the two operands (R213). -/
theorem invalidArguments_none_none (i : Instr) : InvalidArguments i none none := by
  cases i <;> exact .inl rfl

/-- Settles O8: absent operands are within the capacity and an argument error of every command
(`invalidArgumentExactly`). -/
theorem absentOperandsAreInvalid : Obligations.AbsentOperandsAreInvalid := by
  intro i s ha hb
  have habsent : ∀ b, (s.operandBuffer b).present = false
    | .opa => ha
    | .opb => hb
  have hargs : InvalidArguments i (s.operand .opa) (s.operand .opb) := by
    rw [State.operand_of_absent (habsent .opa), State.operand_of_absent (habsent .opb)]
    exact invalidArguments_none_none i
  obtain ⟨t, hexec, -, hraised⟩ := invalidArgumentExactly i s fun b _ => State.overCapacity_of_absent (habsent b)
  exact ⟨t, hexec, hraised hargs⟩

end Sys2Proof.Machine
end
